-- ==== Sys2Proof/Word.lean ====
section
/-! DEFINITION. The word types of the block: the bus word, the byte and the binary64 pattern (00_scope.md R8, R9). -/

namespace Sys2Proof

/-- One byte: a colour channel or a byte of a weight entry (00_scope.md R9, `u8`). -/
abbrev Byte := BitVec 8

/-- One 32-bit register or bus word, bit 0 the least significant (00_scope.md R8). -/
abbrev Word := BitVec 32

/-- A 64-bit binary64 bit pattern, as an amount, coefficient or weight register holds it (40_blender.md R110). -/
abbrev F64 := BitVec 64

end Sys2Proof
end

