-- ==== Sys2Proof/Syntax.lean ====
section
/-! DEFINITION. The commands of the block, one constructor per row of spec/opcode_table.json (30_encoding.md R93).
A command carries no operands (30_encoding.md R91); the N bit of CONV.MATRIX is two rows of the table. -/

namespace Sys2Proof

/-- The closed set of commands (30_encoding.md R93, 44_dispatch.md R220). -/
inductive Instr where
  /-- GREY, 41_perpixel.md R134. -/
  | grey
  /-- SEPIA, 41_perpixel.md R136. -/
  | sepia
  /-- TINT, 41_perpixel.md R141. -/
  | tint
  /-- POSTER, 41_perpixel.md R144. -/
  | poster
  /-- MOSAIC, 41_perpixel.md R147. -/
  | mosaic
  /-- CONV.BOX, 42_convolution.md R180. -/
  | convBox
  /-- CONV.EDGES, 42_convolution.md R181. -/
  | convEdges
  /-- CONV.EMBOSS, 42_convolution.md R182. -/
  | convEmboss
  /-- CONV.SHARPEN, 42_convolution.md R183. -/
  | convSharpen
  /-- CONV.MATRIX with N = 0, 42_convolution.md R184. -/
  | convMatrix
  /-- CONV.MATRIX.N: CONV.MATRIX with N = 1, 42_convolution.md R184. -/
  | convMatrixN
  /-- GBLUR, 43_gaussian.md R203. -/
  | gblur
  /-- DEFAULTS, 44_dispatch.md R236. -/
  | defaults
  deriving DecidableEq, Repr

end Sys2Proof
end

