-- ==== Sys2Proof/WellFormed.lean ====
section
/-! DEFINITION. The fields of a CMD32 word and when they are legal (30_encoding.md R90, R92, R94, R95), written apart
from the decoder. An `Instr` has no operands, so its well-formedness is that of the fields it is encoded in. -/

namespace Sys2Proof

/-- Why a CMD word is illegal (30_encoding.md R94 to R96). Every illegal word raises the same error, UnknownFilter. -/
inductive Illegal where
  /-- Some bit of 31:9 is set (R95). -/
  | reservedBits
  /-- N = 1 with an opcode other than CONV.MATRIX (R92). -/
  | strayNormalize
  /-- OP = 0x06, reserved for the noise filter (R96). -/
  | noiseOpcode
  /-- Any other OP that R93 does not assign, OP = 0 among them. -/
  | unassignedOpcode
  deriving DecidableEq, Repr

/-- The three fields of a CMD32 word (30_encoding.md R90). -/
structure CmdFields where
  op  : BitVec 8
  n   : Bool
  rsv : BitVec 23
  deriving DecidableEq, Repr

namespace CmdFields

/-- The twelve assigned values of OP (30_encoding.md R93). -/
def assignedOps : List (BitVec 8) :=
  [0x01, 0x02, 0x03, 0x04, 0x05, 0x10, 0x11, 0x12, 0x13, 0x14, 0x18, 0x20]

/-- RSV must be 0 (30_encoding.md R90, R95). -/
def rsvZero (f : CmdFields) : Bool := f.rsv == 0

/-- OP must be assigned (30_encoding.md R94). -/
def opAssigned (f : CmdFields) : Bool := assignedOps.contains f.op

/-- N = 0 unless OP = 0x14 (30_encoding.md R92, R94). -/
def normalizeAllowed (f : CmdFields) : Bool := !f.n || f.op == 0x14

/-- A legal command, by its fields (30_encoding.md R94). -/
def wellFormed (f : CmdFields) : Bool := f.rsvZero && f.opAssigned && f.normalizeAllowed

/-- The fields of a word (30_encoding.md R94). -/
def ofWord (w : Word) : CmdFields :=
  { op := w.extractLsb' 0 8, n := w.getLsbD 8, rsv := w.extractLsb' 9 23 }

end CmdFields

namespace Instr

/-- The fields the opcode map gives each command (30_encoding.md R93). -/
def fields : Instr → CmdFields
  | .grey        => { op := 0x01, n := false, rsv := 0 }
  | .sepia       => { op := 0x02, n := false, rsv := 0 }
  | .tint        => { op := 0x03, n := false, rsv := 0 }
  | .poster      => { op := 0x04, n := false, rsv := 0 }
  | .mosaic      => { op := 0x05, n := false, rsv := 0 }
  | .convBox     => { op := 0x10, n := false, rsv := 0 }
  | .convEdges   => { op := 0x11, n := false, rsv := 0 }
  | .convEmboss  => { op := 0x12, n := false, rsv := 0 }
  | .convSharpen => { op := 0x13, n := false, rsv := 0 }
  | .convMatrix  => { op := 0x14, n := false, rsv := 0 }
  | .convMatrixN => { op := 0x14, n := true, rsv := 0 }
  | .gblur       => { op := 0x18, n := false, rsv := 0 }
  | .defaults    => { op := 0x20, n := false, rsv := 0 }

/-- Every operandless command is well-formed when its fields are (30_encoding.md R91, R94). -/
def wellFormed (i : Instr) : Bool := i.fields.wellFormed

end Instr
end Sys2Proof
end

