-- ==== Sys2Proof/Decode.lean ====
section
/-! DEFINITION. The decoder of CMD32 words, total on all 2^32 words and rejecting by name, and the encoder, both from
30_encoding.md R90 to R96. -/

namespace Sys2Proof

/-- OP = word[7:0] (30_encoding.md R94). -/
def opField (w : Word) : BitVec 8 := w.extractLsb' 0 8

/-- N = word[8] (30_encoding.md R94). -/
def nField (w : Word) : Bool := w.getLsbD 8

/-- RSV = word[31:9] (30_encoding.md R94). -/
def rsvField (w : Word) : BitVec 23 := w.extractLsb' 9 23

/-- The opcode map for N = 0 (30_encoding.md R93). -/
def opcodeMap (op : BitVec 8) : Option Instr :=
  match op with
  | 0x01#8 => some .grey
  | 0x02#8 => some .sepia
  | 0x03#8 => some .tint
  | 0x04#8 => some .poster
  | 0x05#8 => some .mosaic
  | 0x10#8 => some .convBox
  | 0x11#8 => some .convEdges
  | 0x12#8 => some .convEmboss
  | 0x13#8 => some .convSharpen
  | 0x14#8 => some .convMatrix
  | 0x18#8 => some .gblur
  | 0x20#8 => some .defaults
  | _ => none

/-- The command a CMD word stands for, or why it is illegal (30_encoding.md R94 to R96). -/
def decode (w : Word) : Except Illegal Instr :=
  if rsvField w ≠ 0 then .error .reservedBits
  else if nField w then
    if opField w = 0x14 then .ok .convMatrixN else .error .strayNormalize
  else
    match opcodeMap (opField w) with
    | some i => .ok i
    | none => if opField w = 0x06 then .error .noiseOpcode else .error .unassignedOpcode

/-- The CMD word of each command (30_encoding.md R93, "The full command words"). -/
def encode : Instr → Word
  | .grey        => 0x00000001
  | .sepia       => 0x00000002
  | .tint        => 0x00000003
  | .poster      => 0x00000004
  | .mosaic      => 0x00000005
  | .convBox     => 0x00000010
  | .convEdges   => 0x00000011
  | .convEmboss  => 0x00000012
  | .convSharpen => 0x00000013
  | .convMatrix  => 0x00000014
  | .convMatrixN => 0x00000114
  | .gblur       => 0x00000018
  | .defaults    => 0x00000020

/-- A CMD word given by its low `nbits` bits, the bits above 0: the word the CMD register holds. -/
def commandWord (nbits w : Nat) : Word := BitVec.ofNat 32 (w % 2 ^ nbits)

/-- The instruction the decoder reads from a table row's bits. A command has 32 bits (30_encoding.md R90); a longer
row is no command of this block. -/
def decodeTableWord (nbits w : Nat) : Option Instr :=
  if 32 < nbits then none
  else
    match decode (commandWord nbits w) with
    | .ok i => some i
    | .error _ => none

end Sys2Proof
end

