-- ==== Sys2Proof/Config.lean ====
section
/-! DEFINITION. The implementation parameters at this hardware's values (00_scope.md R7), the names of the four
memories, and the free values the spec leaves open (93_implementation_defined.md U2, U3, U4). -/

namespace Sys2Proof

/-- The four memories of the block (10_state.md R37 to R40). -/
inductive Space where
  /-- Kernel weights, 81 entries of 8 bytes (R37). -/
  | kw
  /-- Gaussian taps, 255 entries of 8 bytes (R38). -/
  | gt
  /-- Source pixels (R39). -/
  | inMem
  /-- Result pixels (R40). -/
  | outMem
  deriving DecidableEq, Repr

namespace Config

/-- MEM_BYTES, the bytes in each of IN_MEM and OUT_MEM (00_scope.md R7). -/
def memBytes : Nat := 0x100000

/-- MAX_KSIZE, the largest custom-matrix size (00_scope.md R7). -/
def maxKsize : Nat := 9

/-- MAX_GTAPS, the largest Gaussian tap count (00_scope.md R7). -/
def maxGtaps : Nat := 255

/-- NORM_TOL, the tolerance under which a kernel sum counts as "already 1" (00_scope.md R7). -/
def normTol : Rat := 0

/-- ID, constant at all times (10_state.md R28). -/
def idValue : Word := 0x50424A53

/-- VERSION, constant at all times (10_state.md R29). -/
def versionValue : Word := 0x00000007

/-- CAP0: MAX_KSIZE in bits 7:0, MAX_GTAPS in bits 15:8 (10_state.md R30). -/
def cap0Value : Word := BitVec.ofNat 32 (maxKsize + 256 * maxGtaps)

/-- CAP_MEMBYTES (10_state.md R31). -/
def capMemBytesValue : Word := BitVec.ofNat 32 memBytes

/-- The size of each memory in bytes (10_state.md R37 to R40). -/
def spaceBytes : Space → Nat
  | .kw => 8 * (maxKsize * maxKsize)
  | .gt => 8 * maxGtaps
  | .inMem => memBytes
  | .outMem => memBytes

/-- FREE VALUE (93_implementation_defined.md U2; log 5): what a byte that nothing has written since hard reset
number `era` holds, as a host read sees it. Nothing constrains it. -/
opaque unwrittenByte (era : Nat) (space : Space) (address : Nat) : Byte

/-- FREE VALUE (93_implementation_defined.md U3 and U4; log 7): byte `address` of draw number `draw`, one draw for
each host read of OUT_MEM while BUSY = 1 and one for each abandoned command. Nothing constrains it. -/
opaque drawnByte (draw : Nat) (address : Nat) : Byte

end Config
end Sys2Proof
end

