-- ==== Sys2Proof/Machine/Params.lean ====
section
/-! DEFINITION. The parameter register file that the DEFAULTS command restores, with its reset values
(10_state.md R21, R23 to R27; 44_dispatch.md R236). -/

namespace Sys2Proof.Machine

/-- The ten amount registers, by name (10_state.md R25). -/
inductive Amount where
  | grey | sepia | tint | poster | mosaic | box | edges | emboss | sharpen | matrix
  deriving DecidableEq, Repr

/-- The place of an amount register in the table of 10_state.md R25. -/
def amountIndex : Amount → Fin 10
  | .grey => 0
  | .sepia => 1
  | .tint => 2
  | .poster => 3
  | .mosaic => 4
  | .box => 5
  | .edges => 6
  | .emboss => 7
  | .sharpen => 8
  | .matrix => 9

/-- The byte offset of an amount register (10_state.md R25: 0x080 to 0x0C8 in steps of 8). -/
def amountOffset (a : Amount) : Nat := 0x080 + 8 * (amountIndex a).val

/-- The parameter registers R23 to R27: the registers 44_dispatch.md R236 lists. -/
structure Params where
  /-- KSIZE, offset 0x02C (R23). -/
  ksize        : Word
  /-- GLEN, offset 0x030 (R23). -/
  glen         : Word
  /-- POSTER_LEVELS, offset 0x034 (R23). -/
  posterLevels : Word
  /-- MOSAIC_SIZE, offset 0x038 (R23). -/
  mosaicSize   : Word
  /-- TINT_HEX0, offset 0x040 (R24). -/
  tintHex0     : Word
  /-- TINT_HEX1, offset 0x044 (R24). -/
  tintHex1     : Word
  /-- The amount registers in the order of R25, at 0x080 + 8 * i. -/
  amounts      : Vector F64 10
  /-- LUM_COEF0..2, at 0x100 + 8 * i (R26). -/
  lumCoef      : Vector F64 3
  /-- SEP_COEF0..8, at 0x120 + 8 * i (R27). -/
  sepCoef      : Vector F64 9
  deriving DecidableEq, Repr

/-- The pattern an amount register holds (10_state.md R25). -/
def amountReg (p : Params) (a : Amount) : F64 := p.amounts[amountIndex a]

/-- The reset values of the parameter registers (10_state.md R23 to R27, R45). -/
def Params.reset : Params where
  ksize := 3
  glen := 1
  posterLevels := 5
  mosaicSize := 5
  tintHex0 := 0x46464623
  tintHex1 := 0x00464646
  amounts := #v[0x3FF0000000000000, 0x3FF0000000000000, 0x3FD3333333333333, 0x3FF0000000000000,
    0x3FF0000000000000, 0x3FF0000000000000, 0x3FF0000000000000, 0x3FD0000000000000,
    0x3FD0000000000000, 0x3FF0000000000000]
  lumCoef := #v[0x3FCAE147AE147AE1, 0x3FE6B851EB851EB8, 0x3FB1EB851EB851EC]
  sepCoef := #v[0x3FD926E978D4FDF4, 0x3FE89BA5E353F7CF, 0x3FC83126E978D4FE,
    0x3FD65604189374BC, 0x3FE5F3B645A1CAC1, 0x3FC5810624DD2F1B,
    0x3FD16872B020C49C, 0x3FE116872B020C4A, 0x3FC0C49BA5E353F8]

end Sys2Proof.Machine
end

