-- ==== Sys2Proof/Machine/State.lean ====
section
/-! DEFINITION. The whole state of the block as plain data, the reasons a step can stop, and the state after reset
(10_state.md R20 to R45). -/

namespace Sys2Proof.Machine

/-- A memory: (address, byte) pairs in rising address order. An unlisted address holds no value the engine may use
(40_blender.md R111; log 5). -/
abbrev Memory := List Host.Cell

/-- The size of a bus transaction (20_memory.md R60). -/
inductive Size where
  | b1 | b2 | b4
  deriving DecidableEq, Repr

/-- One turn of the schedule: what moves next and with what input (log 1). -/
inductive Turn where
  /-- A host bus read of `size` bytes at byte offset `off` (20_memory.md R60). -/
  | read (size : Size) (off : BitVec 22)
  /-- A host bus write of the low bytes of `data` (20_memory.md R60, R61). -/
  | write (size : Size) (off : BitVec 22) (data : Word)
  /-- The `rst` input is driven to `level` (10_state.md R20, 70_reset_and_hazards.md R280). -/
  | rst (level : Bool)
  /-- The engine takes its step, if a command is running (44_dispatch.md R222). -/
  | engine
  deriving DecidableEq, Repr

/-- The three error kinds (60_exceptions.md R250). -/
inductive ErrKind where
  | invalidBuffer
  | unknownFilter
  | invalidParameter
  deriving DecidableEq, Repr

/-- Why the model stops. -/
inductive Fault where
  /-- A command read a weight entry or an IN_MEM byte that nothing has written since hard reset. Raised by every pixel
  command (IN_MEM), CONV.MATRIX and CONV.MATRIX.N (KW) and GBLUR (GT). Safe: the hardware goes on with some value, the
  model stops (40_blender.md R111, 92_eei_decisions.md D39). `address` is the byte address in `space`. -/
  | unwrittenStorage (space : Space) (address : Nat)
  deriving DecidableEq, Repr

/-- Why an instruction has no meaning in the model. -/
inductive Refusal where
  /-- An instruction without a meaning yet. Raised by exec's refused arms only, of which there are none. Safe. -/
  | notModelled (mnemonic : String)
  deriving DecidableEq, Repr

/-- Everything the spec gives the block, and three fields of the model's own (`turns`, `era`, `draws`).
The flags of CTRL and STATUS are stored one by one; the register words are computed from them (log 14). -/
structure State where
  /-- MODEL'S OWN: the schedule, first turn first (log 1). -/
  turns    : List Turn
  /-- The level of the `rst` input (10_state.md R20). -/
  rst      : Bool
  /-- The bus read data of the last read transaction (10_state.md R20; log 4). -/
  rdata    : Word
  /-- CTRL.IRQ_EN (10_state.md R32). -/
  irqEn    : Bool
  /-- STATUS.BUSY (10_state.md R33). -/
  busy     : Bool
  /-- STATUS.DONE (10_state.md R33). -/
  done     : Bool
  /-- STATUS.ERR (10_state.md R33). -/
  err      : Bool
  /-- STATUS.ERR_CODE; `none` is code 0, "no error recorded" (10_state.md R33, 60_exceptions.md R250). -/
  errCode  : Option ErrKind
  /-- STATUS.BUSY_WR (10_state.md R33). -/
  busyWr   : Bool
  /-- STATUS.ACC_ERR (10_state.md R33). -/
  accErr   : Bool
  /-- ERR_INFO (10_state.md R34). -/
  errInfo  : Word
  /-- CMD, the last latched command word (10_state.md R35). -/
  cmd      : Word
  /-- WIDTH (10_state.md R22). -/
  width    : Word
  /-- HEIGHT (10_state.md R22). -/
  height   : Word
  /-- DATA_LEN (10_state.md R22). -/
  dataLen  : Word
  /-- The parameter registers (10_state.md R23 to R27). -/
  params   : Params
  /-- KW, byte-addressed from its base 0x400 (10_state.md R37). -/
  kw       : Memory
  /-- GT, byte-addressed from its base 0x800 (10_state.md R38). -/
  gt       : Memory
  /-- IN_MEM (10_state.md R39). -/
  inMem    : Memory
  /-- OUT_MEM (10_state.md R40). -/
  outMem   : Memory
  /-- MODEL'S OWN: hard resets so far, indexing the contents of unwritten storage (log 5). -/
  era      : Nat
  /-- MODEL'S OWN: free draws taken so far (log 7). -/
  draws    : Nat
  deriving DecidableEq, Repr

/-- The block right after a hard reset: idle, every register at its reset value, the memories unwritten
(10_state.md R45, 70_reset_and_hazards.md R280 to R282). `turns`, `rdata`, `era` and `draws` are the model's choice
(log 1, 4, 5, 7). -/
def State.reset : State where
  turns := []
  rst := false
  rdata := 0
  irqEn := false
  busy := false
  done := false
  err := false
  errCode := none
  busyWr := false
  accErr := false
  errInfo := 0
  cmd := 0
  width := 0
  height := 0
  dataLen := 0
  params := Params.reset
  kw := []
  gt := []
  inMem := []
  outMem := []
  era := 0
  draws := 0

end Sys2Proof.Machine
end

