-- ==== Sys2Proof/Machine/Ops.lean ====
section
/-! DEFINITION. The shared operations: byte-addressed memory in one canonical form, the start and the two ends of a
command (an error completion is the block's one form of exception), and the two resets. -/

namespace Sys2Proof.Machine

/-! ### Memory -/

/-- The byte at an address, `none` where nothing is listed. -/
def Memory.read : Memory → Nat → Option Byte
  | [], _ => none
  | (k, b) :: m, a => if a = k then some b else Memory.read m a

/-- Store one byte, keeping the addresses rising. -/
def Memory.write : Memory → Nat → Byte → Memory
  | [], a, b => [(a, b)]
  | (k, c) :: m, a, b =>
    if a < k then (a, b) :: (k, c) :: m
    else if a = k then (a, b) :: m
    else (k, c) :: Memory.write m a b

/-- Addresses strictly rising from `lo` on and below `size`. -/
def Memory.wfFrom (size : Nat) : Nat → Memory → Bool
  | _, [] => true
  | lo, (k, _) :: m => decide (lo ≤ k) && decide (k < size) && Memory.wfFrom size (k + 1) m

/-- The canonical form of a memory of `size` bytes: addresses strictly rising, all inside the memory. An unlisted
address has no value, so no listed entry can equal what an unlisted address reads as. -/
def Memory.wf (size : Nat) (m : Memory) : Bool := Memory.wfFrom size 0 m

/-- Replace bytes 0 to `n - 1` by `f 0 .. f (n - 1)` and keep the rest (44_dispatch.md R231). -/
def Memory.overwrite (m : Memory) (n : Nat) (f : Nat → Byte) : Memory :=
  (List.range n).map (fun a => (a, f a)) ++ m.filter (fun c => n ≤ c.1)

/-- `n` bytes from `a` as an unsigned little-endian integer (20_memory.md R61, 00_scope.md R10 MemRead). -/
def loadLE (byteAt : Nat → Byte) (a : Nat) : Nat → Nat
  | 0 => 0
  | n + 1 => (byteAt a).toNat + 256 * loadLE byteAt (a + 1) n

/-- Store the low `n` bytes of `v` from `a` on, little-endian (20_memory.md R61, 00_scope.md R10 MemWrite). -/
def storeLE (m : Memory) (a : Nat) : Nat → Nat → Memory
  | 0, _ => m
  | n + 1, v => storeLE (Memory.write m a (BitVec.ofNat 8 v)) (a + 1) n (v / 256)

/-- `n` listed bytes from `a`, little-endian; `none` if one of them is not listed (40_blender.md R111). -/
def loadWritten (m : Memory) (a : Nat) : Nat → Option Nat
  | 0 => some 0
  | n + 1 =>
    match Memory.read m a, loadWritten m (a + 1) n with
    | some b, some r => some (b.toNat + 256 * r)
    | _, _ => none

/-- The memory of a space (20_memory.md R71). -/
def memory (s : State) : Space → Memory
  | .kw => s.kw
  | .gt => s.gt
  | .inMem => s.inMem
  | .outMem => s.outMem

/-- Replace the memory of a space. -/
def setMemory (s : State) (sp : Space) (m : Memory) : State :=
  match sp with
  | .kw => { s with kw := m }
  | .gt => { s with gt := m }
  | .inMem => { s with inMem := m }
  | .outMem => { s with outMem := m }

/-- What a host read sees at a byte: the written value, or the free contents of unwritten storage
(40_blender.md R111, 93_implementation_defined.md U2; log 5). -/
def hostByte (s : State) (sp : Space) (a : Nat) : Byte :=
  (Memory.read (memory s sp) a).getD (Config.unwrittenByte s.era sp a)

/-! ### Buffer geometry -/

/-- W = reg[WIDTH] (00_scope.md R10). -/
def bufW (s : State) : Nat := s.width.toNat

/-- H = reg[HEIGHT] (00_scope.md R10). -/
def bufH (s : State) : Nat := s.height.toNat

/-- N4 = W * H * 4, exact (44_dispatch.md R226). -/
def bufBytes (s : State) : Nat := bufW s * bufH s * 4

/-! ### The life of a command -/

/-- Command start: the CMD word is latched, the record of the last command cleared, BUSY set (44_dispatch.md R223). -/
def startCommand (w : Word) (s : State) : State :=
  { s with cmd := w, done := false, err := false, errCode := none, errInfo := 0, busy := true }

/-- Error completion, `raise K(info)`: what a failure records, and nothing else (44_dispatch.md R224,
60_exceptions.md R254, R257). The block's one form of taking an exception. -/
def raiseError (k : ErrKind) (info : Word) (s : State) : State :=
  { s with errCode := some k, errInfo := info, err := true, busy := false }

/-- The return from an error: ERR, ERR_CODE and ERR_INFO cleared (60_exceptions.md R260, 10_state.md R33, R34). -/
def clearError (s : State) : State :=
  { s with err := false, errCode := none, errInfo := 0 }

/-- Successful completion (44_dispatch.md R229). -/
def completeCommand (s : State) : State :=
  { s with done := true, busy := false }

/-! ### Why a command ends early -/

/-- A check that fails: an error of the block, or a read of unwritten storage (a fault of the model). -/
inductive Stop where
  /-- `raise kind(info)` (44_dispatch.md R224). -/
  | raise (kind : ErrKind) (info : Word)
  /-- A read of unwritten storage (40_blender.md R111). -/
  | unwritten (space : Space) (address : Nat)
  deriving DecidableEq, Repr

/-- End a command at the check that failed (44_dispatch.md R224, 40_blender.md R111). -/
def stopCommand (e : Stop) (s : State) : Host.Outcome State Fault Refusal :=
  match e with
  | .raise k info => .next (raiseError k info s)
  | .unwritten sp a => .fault (.unwrittenStorage sp a)

/-! ### Resets -/

/-- An abandoned command leaves OUT_MEM bytes 0 to W*H*4 - 1 (those that exist) at free values, fixed once drawn
(70_reset_and_hazards.md R283, 93_implementation_defined.md U4; log 7, 9). -/
def abandonCommand (s : State) : State :=
  { s with
    outMem := Memory.overwrite s.outMem (min (bufBytes s) Config.memBytes) (Config.drawnByte s.draws)
    draws := s.draws + 1 }

/-- Every register of 10_state.md R22 to R35 at its reset value; memories and the model's own fields kept
(10_state.md R45). -/
def resetRegisters (s : State) : State :=
  { State.reset with
    turns := s.turns
    rst := s.rst
    rdata := s.rdata
    kw := s.kw
    gt := s.gt
    inMem := s.inMem
    outMem := s.outMem
    era := s.era
    draws := s.draws }

/-- Soft reset (70_reset_and_hazards.md R283). -/
def softReset (s : State) : State :=
  resetRegisters (if s.busy then abandonCommand s else s)

/-- Hard reset with the `rst` input at `level`: registers at their reset values, no command running, every memory
unwritten with contents of a new era (70_reset_and_hazards.md R280; log 5, 8). -/
def hardReset (level : Bool) (s : State) : State :=
  { State.reset with
    turns := s.turns
    rst := level
    rdata := s.rdata
    era := s.era + 1
    draws := s.draws }

end Sys2Proof.Machine
end

