-- ==== Sys2Proof/Machine/Flags.lean ====
section
/-! DEFINITION. The register words computed from the flags, the W1C write of STATUS and the interrupt output
(10_state.md R32, R33, R42; 60_exceptions.md R250, R258, R259). -/

namespace Sys2Proof.Machine

/-- The STATUS.ERR_CODE value of an error kind (60_exceptions.md R250). -/
def errKindCode : ErrKind → Nat
  | .invalidBuffer => 1
  | .unknownFilter => 2
  | .invalidParameter => 3

/-- The STATUS.ERR_CODE field, 0 when no error is recorded (10_state.md R33, 60_exceptions.md R250). -/
def errCodeField (s : State) : Nat :=
  match s.errCode with
  | none => 0
  | some k => errKindCode k

/-- CTRL as a read returns it: IRQ_EN in bit 0, SRST and the reserved bits 0 (10_state.md R32). -/
def ctrlWord (s : State) : Word := BitVec.ofNat 32 s.irqEn.toNat

/-- STATUS as a read returns it (10_state.md R33). -/
def statusWord (s : State) : Word :=
  BitVec.ofNat 32
    (s.busy.toNat + 2 * s.done.toNat + 4 * s.err.toNat + 16 * errCodeField s
      + 256 * s.busyWr.toNat + 512 * s.accErr.toNat)

/-- A write of STATUS: each W1C bit written 1 is cleared; ERR takes ERR_CODE and ERR_INFO with it; the other bits are
read-only or reserved (10_state.md R33, R34; 60_exceptions.md R259). -/
def writeStatus (v : Word) (s : State) : State :=
  let s := if v.getLsbD 1 then { s with done := false } else s
  let s := if v.getLsbD 2 then clearError s else s
  let s := if v.getLsbD 8 then { s with busyWr := false } else s
  if v.getLsbD 9 then { s with accErr := false } else s

/-- A write of CTRL: SRST = 1 is the soft reset and nothing else of the write applies; otherwise IRQ_EN takes bit 0
(10_state.md R32, 70_reset_and_hazards.md R283). -/
def writeCtrl (v : Word) (s : State) : State :=
  if v.getLsbD 1 then softReset s else { s with irqEn := v.getLsbD 0 }

/-- The level interrupt output (60_exceptions.md R258); low while `rst` is high (70_reset_and_hazards.md R280). -/
def irq (s : State) : Bool := !s.rst && (s.irqEn && (s.done || s.err))

end Sys2Proof.Machine
end

