-- ==== Sys2Proof/Machine/Bus.lean ====
section
/-! DEFINITION. Host bus transactions: the address map, register reads and writes, the pixel windows, unsupported
accesses and writes while busy (20_memory.md R60 to R73, 10_state.md R22 to R38, 70_reset_and_hazards.md R290, R291). -/

namespace Sys2Proof.Machine

/-- A plain 32-bit read-write register (10_state.md R22 to R24). -/
inductive WordReg where
  | width | height | dataLen | ksize | glen | posterLevels | mosaicSize | tintHex0 | tintHex1
  deriving DecidableEq, Repr

/-- A 64-bit register (10_state.md R25 to R27). -/
inductive F64Reg where
  | amount (i : Fin 10)
  | lumCoef (i : Fin 3)
  | sepCoef (i : Fin 9)
  deriving DecidableEq, Repr

/-- What stands at a 4-byte offset of the register space (20_memory.md R72). -/
inductive RegLoc where
  | id | version | cap0 | capMemBytes | ctrl | status | errInfo | cmd
  | word (r : WordReg)
  /-- One half of a 64-bit register; `hi` is offset + 4 (20_memory.md R65). -/
  | half (r : F64Reg) (hi : Bool)
  /-- Four bytes of KW or GT from byte `address` on, half of an entry (10_state.md R37, R38). -/
  | weight (space : Space) (address : Nat)
  /-- Reads 0, ignores writes (10_state.md R36). -/
  | reserved
  deriving DecidableEq, Repr

/-- What a bus transaction reaches (20_memory.md R62 to R64). -/
inductive Target where
  | unsupported
  | reg (loc : RegLoc)
  | pixel (space : Space) (address : Nat)
  deriving DecidableEq, Repr

/-- The bytes of a transaction (20_memory.md R60). -/
def sizeBytes : Size → Nat
  | .b1 => 1
  | .b2 => 2
  | .b4 => 4

/-- The 32-bit registers below 0x048 (20_memory.md R72). -/
def lowRegLoc (off : Nat) : RegLoc :=
  match off with
  | 0x000 => .id
  | 0x004 => .version
  | 0x008 => .cap0
  | 0x00C => .capMemBytes
  | 0x010 => .ctrl
  | 0x014 => .status
  | 0x018 => .errInfo
  | 0x01C => .cmd
  | 0x020 => .word .width
  | 0x024 => .word .height
  | 0x028 => .word .dataLen
  | 0x02C => .word .ksize
  | 0x030 => .word .glen
  | 0x034 => .word .posterLevels
  | 0x038 => .word .mosaicSize
  | 0x040 => .word .tintHex0
  | 0x044 => .word .tintHex1
  | _ => .reserved

/-- The register map (20_memory.md R70, R72; reserved offsets 10_state.md R36). -/
def regLoc (off : Nat) : RegLoc :=
  if off < 0x080 then lowRegLoc off
  else if h : 0x080 ≤ off ∧ off < 0x0D0 then
    .half (.amount ⟨(off - 0x080) / 8, by omega⟩) (decide (4 ≤ off % 8))
  else if h : 0x100 ≤ off ∧ off < 0x118 then
    .half (.lumCoef ⟨(off - 0x100) / 8, by omega⟩) (decide (4 ≤ off % 8))
  else if h : 0x120 ≤ off ∧ off < 0x168 then
    .half (.sepCoef ⟨(off - 0x120) / 8, by omega⟩) (decide (4 ≤ off % 8))
  else if 0x400 ≤ off ∧ off < 0x400 + Config.spaceBytes .kw then .weight .kw (off - 0x400)
  else if 0x800 ≤ off ∧ off < 0x800 + Config.spaceBytes .gt then .weight .gt (off - 0x800)
  else .reserved

/-- What a transaction of a size at an offset reaches: alignment, register space, the two pixel windows
(20_memory.md R62 to R64). -/
def target (size : Size) (off : BitVec 22) : Target :=
  let a := off.toNat
  if a % sizeBytes size ≠ 0 then .unsupported
  else if a < 0x100000 then
    match size with
    | .b4 => .reg (regLoc a)
    | .b1 | .b2 => .unsupported
  else if a < 0x200000 then
    if a - 0x100000 < Config.memBytes then .pixel .inMem (a - 0x100000) else .unsupported
  else if a < 0x300000 then
    if a - 0x200000 < Config.memBytes then .pixel .outMem (a - 0x200000) else .unsupported
  else .unsupported

/-! ### Registers -/

/-- The value of a plain 32-bit register. -/
def getWord (s : State) : WordReg → Word
  | .width => s.width
  | .height => s.height
  | .dataLen => s.dataLen
  | .ksize => s.params.ksize
  | .glen => s.params.glen
  | .posterLevels => s.params.posterLevels
  | .mosaicSize => s.params.mosaicSize
  | .tintHex0 => s.params.tintHex0
  | .tintHex1 => s.params.tintHex1

/-- Write a plain 32-bit register. -/
def setWord (s : State) (r : WordReg) (v : Word) : State :=
  match r with
  | .width => { s with width := v }
  | .height => { s with height := v }
  | .dataLen => { s with dataLen := v }
  | .ksize => { s with params := { s.params with ksize := v } }
  | .glen => { s with params := { s.params with glen := v } }
  | .posterLevels => { s with params := { s.params with posterLevels := v } }
  | .mosaicSize => { s with params := { s.params with mosaicSize := v } }
  | .tintHex0 => { s with params := { s.params with tintHex0 := v } }
  | .tintHex1 => { s with params := { s.params with tintHex1 := v } }

/-- The pattern of a 64-bit register. -/
def getF64 (s : State) : F64Reg → F64
  | .amount i => s.params.amounts[i]
  | .lumCoef i => s.params.lumCoef[i]
  | .sepCoef i => s.params.sepCoef[i]

/-- Write a 64-bit register. -/
def setF64 (s : State) (r : F64Reg) (b : F64) : State :=
  match r with
  | .amount i => { s with params := { s.params with amounts := s.params.amounts.set i b } }
  | .lumCoef i => { s with params := { s.params with lumCoef := s.params.lumCoef.set i b } }
  | .sepCoef i => { s with params := { s.params with sepCoef := s.params.sepCoef.set i b } }

/-- One 32-bit half of a pattern (20_memory.md R65). -/
def getHalf (hi : Bool) (b : F64) : Word := if hi then b.extractLsb' 32 32 else b.extractLsb' 0 32

/-- A pattern with one half replaced (20_memory.md R65). -/
def setHalf (hi : Bool) (b : F64) (v : Word) : F64 :=
  if hi then v ++ getHalf false b else getHalf true b ++ v

/-- A 4-byte read of a register (20_memory.md R62, R72). -/
def readReg (s : State) : RegLoc → Word
  | .id => Config.idValue
  | .version => Config.versionValue
  | .cap0 => Config.cap0Value
  | .capMemBytes => Config.capMemBytesValue
  | .ctrl => ctrlWord s
  | .status => statusWord s
  | .errInfo => s.errInfo
  | .cmd => s.cmd
  | .word r => getWord s r
  | .half r hi => getHalf hi (getF64 s r)
  | .weight sp a => BitVec.ofNat 32 (loadLE (hostByte s sp) a 4)
  | .reserved => 0

/-- A write to a location that is closed while a command runs: dropped with BUSY_WR set (70_reset_and_hazards.md R290). -/
def whenIdle (s : State) (written : State) : State :=
  if s.busy then { s with busyWr := true } else written

/-- A 4-byte write of a register (20_memory.md R62, R69, R72; 70_reset_and_hazards.md R290). -/
def writeReg (s : State) (loc : RegLoc) (v : Word) : State :=
  match loc with
  | .id | .version | .cap0 | .capMemBytes | .errInfo | .reserved => s
  | .ctrl => writeCtrl v s
  | .status => writeStatus v s
  | .cmd => whenIdle s (startCommand v s)
  | .word r => whenIdle s (setWord s r v)
  | .half r hi => whenIdle s (setF64 s r (setHalf hi (getF64 s r) v))
  | .weight sp a => whenIdle s (setMemory s sp (storeLE (memory s sp) a 4 v.toNat))

/-! ### Transactions -/

/-- A host read of OUT_MEM while a command runs returns free bytes, drawn anew at every read
(20_memory.md R77, 93_implementation_defined.md U3; log 7). -/
def readDrawn (s : State) (a n : Nat) : State :=
  { s with rdata := BitVec.ofNat 32 (loadLE (Config.drawnByte s.draws) a n), draws := s.draws + 1 }

/-- A supported read of a pixel window (20_memory.md R61, R64, R77). -/
def readPixels (s : State) (sp : Space) (a n : Nat) : State :=
  if s.busy ∧ sp = .outMem then readDrawn s a n
  else { s with rdata := BitVec.ofNat 32 (loadLE (hostByte s sp) a n) }

/-- A host bus read (20_memory.md R60 to R64); 0 and no effect while `rst` is high (70_reset_and_hazards.md R280). -/
def busRead (s : State) (size : Size) (off : BitVec 22) : State :=
  if s.rst then { s with rdata := 0 }
  else
    match target size off with
    | .unsupported => { s with rdata := 0, accErr := true }
    | .reg loc => { s with rdata := readReg s loc }
    | .pixel sp a => readPixels s sp a (sizeBytes size)

/-- A host bus write (20_memory.md R60 to R64); ignored while `rst` is high (70_reset_and_hazards.md R280). -/
def busWrite (s : State) (size : Size) (off : BitVec 22) (v : Word) : State :=
  if s.rst then s
  else
    match target size off with
    | .unsupported => { s with accErr := true }
    | .reg loc => writeReg s loc v
    | .pixel sp a => whenIdle s (setMemory s sp (storeLE (memory s sp) a (sizeBytes size) v.toNat))

/-- The `rst` input is driven to a level: raising it resets the block and holds it, lowering it leaves the block in its
reset state (70_reset_and_hazards.md R280; log 8). -/
def driveRst (s : State) (level : Bool) : State :=
  if s.rst || level then hardReset level s else s

end Sys2Proof.Machine
end

