-- ==== Sys2Proof/Machine/Blend.lean ====
section
/-! DEFINITION. Exact numbers and the ColorBlender (40_blender.md R110 to R117). -/

namespace Sys2Proof.Machine

/-- Exponent field `e = b[62:52]` (40_blender.md R110). -/
def f64Exponent (b : F64) : Nat := (b.extractLsb' 52 11).toNat

/-- Fraction field `f = b[51:0]` (40_blender.md R110). -/
def f64Fraction (b : F64) : Nat := (b.extractLsb' 0 52).toNat

/-- A pattern is finite if and only if `e != 0x7FF` (40_blender.md R110). -/
def f64Finite (b : F64) : Bool := f64Exponent b != 0x7FF

/-- `m * 2 ^ k / 2 ^ 1075` as an exact rational. -/
def scaled (m k : Nat) : Rat := mkRat ((m * 2 ^ k : Nat) : Int) (2 ^ 1075)

/-- The exact value of a finite binary64 pattern (40_blender.md R110). Non-finite patterns never reach it. -/
def f64val (b : F64) : Rat :=
  let magnitude :=
    if f64Exponent b = 0 then scaled (f64Fraction b) 1
    else scaled (2 ^ 52 + f64Fraction b) (f64Exponent b)
  if b.getLsbD 63 then -magnitude else magnitude

/-- `clamp(v, lo, hi) = min(max(v, lo), hi)` (40_blender.md R113). -/
def clampQ (v lo hi : Rat) : Rat := min (max v lo) hi

/-- `roundhu(v) = floor(v + 1/2)` (40_blender.md R114). -/
def roundhu (v : Rat) : Int := (v + 1 / 2).floor

/-- `blend(a, c, o) = roundhu(clamp(a*c + (1 - a)*o, 0, 255))` (40_blender.md R115). The rounded value is never
negative, so it is taken as a natural number. -/
def blend (a c : Rat) (o : Nat) : Nat := (roundhu (clampQ (a * c + (1 - a) * o) 0 255)).toNat

end Sys2Proof.Machine
end

