-- ==== Sys2Proof/Machine/Operands.lean ====
section
/-! DEFINITION. What a command reads and the checks on it, in the spec's order: the buffer, the operand registers, the
weight entries, the source pixels; and the shared frame every pixel command runs in (44_dispatch.md R226 to R231). -/

namespace Sys2Proof.Machine

/-! ### Checks -/

/-- A check that raises InvalidParameter at `offset` unless `legal` (44_dispatch.md R227). -/
def checkParam (offset : Nat) (legal : Bool) : Except Stop Unit :=
  if legal then .ok () else .error (.raise .invalidParameter (BitVec.ofNat 32 offset))

/-- "finite": the 64-bit pattern at `offset` is finite (44_dispatch.md R227). -/
def checkFinite (offset : Nat) (b : F64) : Except Stop Unit := checkParam offset (f64Finite b)

/-- The value of an amount register, checked finite at its own offset (44_dispatch.md R227). -/
def amountOperand (s : State) (a : Amount) : Except Stop Rat := do
  checkFinite (amountOffset a) (amountReg s.params a)
  pure (f64val (amountReg s.params a))

/-- Registers `base + 8*i`, checked finite in ascending order, as exact values (44_dispatch.md R227). -/
def finiteValues (base : Nat) : List F64 → Except Stop (List Rat)
  | [] => pure []
  | b :: bs => do
    checkFinite base b
    let vs ← finiteValues (base + 8) bs
    pure (f64val b :: vs)

/-- Check 2, the buffer: the length first, then the capacity (44_dispatch.md R226). -/
def checkBuffer (s : State) : Except Stop Unit :=
  if bufBytes s ≠ s.dataLen.toNat then .error (.raise .invalidBuffer 0x028)
  else if Config.memBytes < bufBytes s then .error (.raise .invalidBuffer 0x020)
  else .ok ()

/-- The 64-bit pattern of weight entry `i`; an entry with an unwritten byte is unwritten (10_state.md R37, R38;
40_blender.md R111; log 6). -/
def weightEntry (m : Memory) (sp : Space) (i : Nat) : Except Stop F64 :=
  match loadWritten m (8 * i) 8 with
  | some v => .ok (BitVec.ofNat 64 v)
  | none => .error (.unwritten sp (8 * i))

/-- Weight entries `i` to `i + n - 1`, read and checked finite in ascending order; `base` is the offset of entry 0
(44_dispatch.md R227; log 10). -/
def weightValues (m : Memory) (sp : Space) (base i : Nat) : Nat → Except Stop (List Rat)
  | 0 => pure []
  | n + 1 => do
    let b ← weightEntry m sp i
    checkFinite (base + 8 * i) b
    let vs ← weightValues m sp base (i + 1) n
    pure (f64val b :: vs)

/-- Check 4: the kernel sum must not be 0 where normalization is requested (44_dispatch.md R228). -/
def checkSum (offset : Nat) (ws : List Rat) : Except Stop Unit :=
  if ws.sum = 0 then .error (.raise .invalidBuffer (BitVec.ofNat 32 offset)) else .ok ()

/-- Every source byte the command reads must have been written (40_blender.md R111, 70_reset_and_hazards.md R285):
the lowest unwritten one stops the model. -/
def checkInput (s : State) : Except Stop Unit :=
  match (List.range (bufBytes s)).find? (fun a => (Memory.read s.inMem a).isNone) with
  | some a => .error (.unwritten .inMem a)
  | none => .ok ()

/-! ### Source pixels -/

/-- Byte offset of channel `k` of the pixel at column `x`, row `y` (20_memory.md R66). -/
def pixelOffset (w x y k : Nat) : Nat := 4 * (y * w + x) + k

/-- `IN(x, y)` channel `k` (0 = R, 1 = G, 2 = B, 3 = A) as an integer (00_scope.md R10). After `checkInput` the byte is
written for every pixel of the buffer, so the default 0 is never seen. -/
def inCh (s : State) (x y k : Nat) : Nat :=
  ((Memory.read s.inMem (pixelOffset (bufW s) x y k)).getD 0).toNat

/-- Clamped addressing of one coordinate: `clamp(i, 0, n - 1)` on integers (42_convolution.md R174). -/
def clampCoord (n : Nat) (i : Int) : Nat := (min (max i 0) ((n : Int) - 1)).toNat

/-! ### The frame of a pixel command -/

/-- Byte `a` of OUT_MEM: channel `a mod 4` of pixel `a / 4`, row-major; colour lanes from `lane x y c`, alpha copied
(20_memory.md R66, 40_blender.md R119). -/
def outByte (s : State) (lane : Nat → Nat → Nat → Nat) (a : Nat) : Byte :=
  let x := a / 4 % bufW s
  let y := a / 4 / bufW s
  if a % 4 = 3 then BitVec.ofNat 8 (inCh s x y 3) else BitVec.ofNat 8 (lane x y (a % 4))

/-- Write the whole result, bytes 0 to W*H*4 - 1 (44_dispatch.md R231). -/
def writeOutput (s : State) (lane : Nat → Nat → Nat → Nat) : State :=
  { s with outMem := Memory.overwrite s.outMem (bufBytes s) (outByte s lane) }

/-- The frame of every pixel command: buffer check, operand checks, source bytes, then the whole output and completion,
or the first failing check and no output (44_dispatch.md R225 to R231, R237). An empty buffer has no byte to write. -/
def pixelCommand {α : Type} (s : State) (operands : Except Stop α) (lane : α → Nat → Nat → Nat → Nat) :
    Host.Outcome State Fault Refusal :=
  match checkBuffer s with
  | .error e => stopCommand e s
  | .ok _ =>
    match operands with
    | .error e => stopCommand e s
    | .ok v =>
      match checkInput s with
      | .error e => stopCommand e s
      | .ok _ => .next (completeCommand (writeOutput s (lane v)))

end Sys2Proof.Machine
end

