-- ==== Sys2Proof/Machine/Convolution.lean ====
section
/-! DEFINITION. The convolution engine: kernels, normalization, the clamped convolution sum, the four presets and the
custom matrix (42_convolution.md). -/

namespace Sys2Proof.Machine

/-- The effective weights: divided by their sum where normalization is requested and the sum is not already 1 within
NORM_TOL (42_convolution.md R173). A zero sum with normalization never reaches this (44_dispatch.md R228). -/
def effectiveWeights (norm : Bool) (ws : List Rat) : List Rat :=
  if norm ∧ Config.normTol < |ws.sum - 1| then ws.map (fun w => w / ws.sum) else ws

/-- The sum of `f 0 .. f (n - 1)`, exact (40_blender.md R112). -/
def sumTo (n : Nat) (f : Nat → Rat) : Rat := ((List.range n).map f).sum

/-- The source channel at offset (dx, dy) from (x, y), with clamped addressing (42_convolution.md R174). -/
def neighbour (s : State) (x y : Nat) (dx dy : Int) (c : Nat) : Nat :=
  inCh s (clampCoord (bufW s) (x + dx)) (clampCoord (bufH s) (y + dy)) c

/-- The convolution sum of channel `c` at (x, y) for a size-`k` kernel, not flipped (42_convolution.md R170, R175). -/
def convSum (s : State) (k : Nat) (ws : List Rat) (x y c : Nat) : Rat :=
  sumTo k fun row => sumTo k fun col =>
    (neighbour s x y ((col : Int) - (k / 2 : Nat)) ((row : Int) - (k / 2 : Nat)) c : Rat) * ws.getD (col + row * k) 0

/-- What a convolution needs per command: the amount, the size and the effective weights (42_convolution.md R173,
"once per invocation, not per pixel"). -/
def convLane (s : State) (v : Rat × Nat × List Rat) (x y c : Nat) : Nat :=
  blend v.1 (convSum s v.2.1 v.2.2 x y c) (inCh s x y c)

/-- A preset's operands: its amount register, its fixed 3 x 3 weights and its fixed normalize request
(42_convolution.md R171, R172). -/
def presetOperands (s : State) (a : Amount) (ws : List Rat) (norm : Bool) : Except Stop (Rat × Nat × List Rat) := do
  let amt ← amountOperand s a
  pure (amt, 3, effectiveWeights norm ws)

/-- The box kernel (42_convolution.md R171). -/
def boxKernel : List Rat := [1, 1, 1, 1, 1, 1, 1, 1, 1]

/-- The edge-detect kernel, sum 0 (42_convolution.md R171). -/
def edgesKernel : List Rat := [0, 1, 0, 1, -4, 1, 0, 1, 0]

/-- The emboss kernel, sum 1 (42_convolution.md R171). -/
def embossKernel : List Rat := [-2, -1, 0, -1, 1, 1, 0, 1, 2]

/-- The sharpen kernel, sum 1 (42_convolution.md R171). -/
def sharpenKernel : List Rat := [-1, -1, -1, -1, 9, -1, -1, -1, -1]

/-- CONV.BOX (42_convolution.md R180). -/
def execConvBox (s : State) : Host.Outcome State Fault Refusal :=
  pixelCommand s (presetOperands s .box boxKernel true) (convLane s)

/-- CONV.EDGES (42_convolution.md R181): normalization is not requested. -/
def execConvEdges (s : State) : Host.Outcome State Fault Refusal :=
  pixelCommand s (presetOperands s .edges edgesKernel false) (convLane s)

/-- CONV.EMBOSS (42_convolution.md R182). -/
def execConvEmboss (s : State) : Host.Outcome State Fault Refusal :=
  pixelCommand s (presetOperands s .emboss embossKernel true) (convLane s)

/-- CONV.SHARPEN (42_convolution.md R183). -/
def execConvSharpen (s : State) : Host.Outcome State Fault Refusal :=
  pixelCommand s (presetOperands s .sharpen sharpenKernel true) (convLane s)

/-- KSIZE is odd and 3 to MAX_KSIZE (44_dispatch.md R227). -/
def ksizeLegal (k : Nat) : Bool := decide (k % 2 = 1) && decide (3 ≤ k) && decide (k ≤ Config.maxKsize)

/-- CONV.MATRIX's operands: 0x02C KSIZE, 0x0C8 MATRIX_AMT, 0x400 + 8*i KW entries, then the zero-sum check if
normalization is requested (44_dispatch.md R227, R228). -/
def matrixOperands (s : State) (norm : Bool) : Except Stop (Rat × Nat × List Rat) := do
  checkParam 0x02C (ksizeLegal s.params.ksize.toNat)
  let amt ← amountOperand s .matrix
  let ws ← weightValues s.kw .kw 0x400 0 (s.params.ksize.toNat * s.params.ksize.toNat)
  if norm then checkSum 0x400 ws
  pure (amt, s.params.ksize.toNat, effectiveWeights norm ws)

/-- CONV.MATRIX with N = 0 (42_convolution.md R184). -/
def execConvMatrix (s : State) : Host.Outcome State Fault Refusal :=
  pixelCommand s (matrixOperands s false) (convLane s)

/-- CONV.MATRIX.N, that is N = 1 (42_convolution.md R184). -/
def execConvMatrixN (s : State) : Host.Outcome State Fault Refusal :=
  pixelCommand s (matrixOperands s true) (convLane s)

end Sys2Proof.Machine
end

