-- ==== Sys2Proof/Machine/Gaussian.lean ====
section
/-! DEFINITION. The separable Gaussian blur with host-supplied taps (43_gaussian.md). -/

namespace Sys2Proof.Machine

/-- GLEN is odd and 1 to MAX_GTAPS (44_dispatch.md R227). -/
def glenLegal (n : Nat) : Bool := decide (n % 2 = 1) && decide (1 ≤ n) && decide (n ≤ Config.maxGtaps)

/-- The horizontal pass at (x, y), exact and unrounded (43_gaussian.md R202). -/
def blurRow (s : State) (n : Nat) (gs : List Rat) (x y c : Nat) : Rat :=
  sumTo n fun i => gs.getD i 0 * (neighbour s x y ((i : Int) - ((n - 1) / 2 : Nat)) 0 c : Rat)

/-- The vertical pass over the horizontal results (43_gaussian.md R202). -/
def blurSum (s : State) (n : Nat) (gs : List Rat) (x y c : Nat) : Rat :=
  sumTo n fun j => gs.getD j 0 * blurRow s n gs x (clampCoord (bufH s) (y + ((j : Int) - ((n - 1) / 2 : Nat)))) c

/-- GBLUR's operands: 0x030 GLEN, 0x800 + 8*i GT entries, then the zero-sum check (44_dispatch.md R227, R228;
43_gaussian.md R201: normalization is always requested). -/
def gblurOperands (s : State) : Except Stop (Nat × List Rat) := do
  checkParam 0x030 (glenLegal s.params.glen.toNat)
  let gs ← weightValues s.gt .gt 0x800 0 s.params.glen.toNat
  checkSum 0x800 gs
  pure (s.params.glen.toNat, effectiveWeights true gs)

/-- One colour lane of GBLUR: blended with amount 1 (43_gaussian.md R203). -/
def gblurLane (s : State) (v : Nat × List Rat) (x y c : Nat) : Nat :=
  blend 1 (blurSum s v.1 v.2 x y c) (inCh s x y c)

/-- GBLUR (43_gaussian.md R203). -/
def execGblur (s : State) : Host.Outcome State Fault Refusal :=
  pixelCommand s (gblurOperands s) (gblurLane s)

end Sys2Proof.Machine
end

