-- ==== Sys2Proof/Machine/PerPixel.lean ====
section
/-! DEFINITION. The per-pixel filters GREY, SEPIA, TINT and POSTER and the block-anchor filter MOSAIC
(41_perpixel.md). -/

namespace Sys2Proof.Machine

/-! ### GREY -/

/-- `lum(R, G, B) = c0*R + c1*G + c2*B`, exact (41_perpixel.md R132). -/
def luminance (cs : List Rat) (s : State) (x y : Nat) : Rat :=
  cs.getD 0 0 * inCh s x y 0 + cs.getD 1 0 * inCh s x y 1 + cs.getD 2 0 * inCh s x y 2

/-- GREY's operands: 0x080 GREY_AMT, then 0x100, 0x108, 0x110 LUM_COEF0..2 (44_dispatch.md R227). -/
def greyOperands (s : State) : Except Stop (Rat × List Rat) := do
  let a ← amountOperand s .grey
  let cs ← finiteValues 0x100 s.params.lumCoef.toList
  pure (a, cs)

/-- One colour lane of GREY (41_perpixel.md R134). -/
def greyLane (s : State) (v : Rat × List Rat) (x y c : Nat) : Nat :=
  blend v.1 (luminance v.2 s x y) (inCh s x y c)

/-- GREY (41_perpixel.md R134). -/
def execGrey (s : State) : Host.Outcome State Fault Refusal :=
  pixelCommand s (greyOperands s) (greyLane s)

/-! ### SEPIA -/

/-- `X'i = sum over j = 0..2 of SEP_COEF(3*i + j) * inj`, exact (41_perpixel.md R135). -/
def sepiaValue (ms : List Rat) (s : State) (x y i : Nat) : Rat :=
  ms.getD (3 * i) 0 * inCh s x y 0 + ms.getD (3 * i + 1) 0 * inCh s x y 1 + ms.getD (3 * i + 2) 0 * inCh s x y 2

/-- SEPIA's operands: 0x088 SEPIA_AMT, then 0x120 + 8*i SEP_COEFi (44_dispatch.md R227). -/
def sepiaOperands (s : State) : Except Stop (Rat × List Rat) := do
  let a ← amountOperand s .sepia
  let ms ← finiteValues 0x120 s.params.sepCoef.toList
  pure (a, ms)

/-- One colour lane of SEPIA (41_perpixel.md R136). -/
def sepiaLane (s : State) (v : Rat × List Rat) (x y c : Nat) : Nat :=
  blend v.1 (sepiaValue v.2 s x y c) (inCh s x y c)

/-- SEPIA (41_perpixel.md R136). -/
def execSepia (s : State) : Host.Outcome State Fault Refusal :=
  pixelCommand s (sepiaOperands s) (sepiaLane s)

/-! ### TINT -/

/-- Hex digit value of an ASCII byte, either letter case (41_perpixel.md R137). -/
def hexVal (c : Byte) : Option Nat :=
  let n := c.toNat
  if 0x30 ≤ n ∧ n ≤ 0x39 then some (n - 0x30)
  else if 0x41 ≤ n ∧ n ≤ 0x46 then some (n - 0x41 + 10)
  else if 0x61 ≤ n ∧ n ≤ 0x66 then some (n - 0x61 + 10)
  else none

/-- The 8 bytes of TINT_HEX0/TINT_HEX1 in string order (10_state.md R24). -/
def tintBytes (h0 h1 : Word) : List Byte :=
  [h0.extractLsb' 0 8, h0.extractLsb' 8 8, h0.extractLsb' 16 8, h0.extractLsb' 24 8,
   h1.extractLsb' 0 8, h1.extractLsb' 8 8, h1.extractLsb' 16 8, h1.extractLsb' 24 8]

/-- The bytes before the first NUL (41_perpixel.md R138). -/
def untilNul : List Byte → List Byte
  | [] => []
  | c :: cs => if c = 0x00 then [] else c :: untilNul cs

/-- One leading '#' removed (41_perpixel.md R138). -/
def dropHash : List Byte → List Byte
  | [] => []
  | c :: cs => if c = 0x23 then cs else c :: cs

/-- The digit values of a list of bytes, `none` if one is no hex digit (41_perpixel.md R137, R139). -/
def hexDigits : List Byte → Option (List Nat)
  | [] => some []
  | c :: cs =>
    match hexVal c, hexDigits cs with
    | some d, some ds => some (d :: ds)
    | _, _ => none

/-- The target colour of 3 or 6 digits; any other count is illegal (41_perpixel.md R139). -/
def colourOfDigits : List Nat → Option (List Nat)
  | [d0, d1, d2] => some [16 * d0 + d0, 16 * d1 + d1, 16 * d2 + d2]
  | [e0, e1, e2, e3, e4, e5] => some [16 * e0 + e1, 16 * e2 + e3, 16 * e4 + e5]
  | _ => none

/-- Parse the tint string: `some [tR, tG, tB]`, or `none` if illegal (41_perpixel.md R138 to R140). -/
def parseTint (h0 h1 : Word) : Option (List Nat) :=
  match hexDigits (dropHash (untilNul (tintBytes h0 h1))) with
  | some ds => colourOfDigits ds
  | none => none

/-- The parsed tint colour, or InvalidParameter at 0x040 (41_perpixel.md R140). -/
def tintColour (s : State) : Except Stop (List Nat) :=
  match parseTint s.params.tintHex0 s.params.tintHex1 with
  | some t => .ok t
  | none => .error (.raise .invalidParameter 0x040)

/-- TINT's operands: 0x040 the string, then 0x090 TINT_AMT (44_dispatch.md R227). -/
def tintOperands (s : State) : Except Stop (Rat × List Nat) := do
  let t ← tintColour s
  let a ← amountOperand s .tint
  pure (a, t)

/-- One colour lane of TINT (41_perpixel.md R141). -/
def tintLane (s : State) (v : Rat × List Nat) (x y c : Nat) : Nat :=
  blend v.1 (v.2.getD c 0 : Nat) (inCh s x y c)

/-- TINT (41_perpixel.md R141). -/
def execTint (s : State) : Host.Outcome State Fault Refusal :=
  pixelCommand s (tintOperands s) (tintLane s)

/-! ### POSTER -/

/-- `poster(c, n) = floor(255 * floor(c * n / 256) / (n - 1))` (41_perpixel.md R143). -/
def posterValue (c n : Nat) : Nat := 255 * (c * n / 256) / (n - 1)

/-- POSTER's operands: 0x034 POSTER_LEVELS >= 2, then 0x098 POSTER_OPA (44_dispatch.md R227). -/
def posterOperands (s : State) : Except Stop (Rat × Nat) := do
  checkParam 0x034 (decide (2 ≤ s.params.posterLevels.toNat))
  let a ← amountOperand s .poster
  pure (a, s.params.posterLevels.toNat)

/-- One colour lane of POSTER (41_perpixel.md R144). -/
def posterLane (s : State) (v : Rat × Nat) (x y c : Nat) : Nat :=
  blend v.1 (posterValue (inCh s x y c) v.2 : Nat) (inCh s x y c)

/-- POSTER (41_perpixel.md R144). -/
def execPoster (s : State) : Host.Outcome State Fault Refusal :=
  pixelCommand s (posterOperands s) (posterLane s)

/-! ### MOSAIC -/

/-- The anchor coordinate of a block of size `k` (41_perpixel.md R145). -/
def anchor (k i : Nat) : Nat := i - i % k

/-- MOSAIC's operands: 0x038 MOSAIC_SIZE >= 1, then 0x0A0 MOSAIC_AMT (44_dispatch.md R227). -/
def mosaicOperands (s : State) : Except Stop (Rat × Nat) := do
  checkParam 0x038 (decide (1 ≤ s.params.mosaicSize.toNat))
  let a ← amountOperand s .mosaic
  pure (a, s.params.mosaicSize.toNat)

/-- One colour lane of MOSAIC (41_perpixel.md R147). -/
def mosaicLane (s : State) (v : Rat × Nat) (x y c : Nat) : Nat :=
  blend v.1 (inCh s (anchor v.2 x) (anchor v.2 y) c : Nat) (inCh s x y c)

/-- MOSAIC (41_perpixel.md R147). -/
def execMosaic (s : State) : Host.Outcome State Fault Refusal :=
  pixelCommand s (mosaicOperands s) (mosaicLane s)

end Sys2Proof.Machine
end

