-- ==== Sys2Proof/Machine/System.lean ====
section
/-! DEFINITION. The DEFAULTS command (44_dispatch.md R236). -/

namespace Sys2Proof.Machine

/-- DEFAULTS: every parameter register takes its reset value; no check, nothing else changes (44_dispatch.md R236). -/
def execDefaults (s : State) : Host.Outcome State Fault Refusal :=
  .next (completeCommand { s with params := Params.reset })

end Sys2Proof.Machine
end

