-- ==== Sys2Proof/Machine/Dispatch.lean ====
section
/-! DEFINITION. What the engine does with each command (44_dispatch.md R220): one arm per constructor. -/

namespace Sys2Proof.Machine

def exec (i : Instr) (s : State) : Host.Outcome State Fault Refusal :=
  match i with
  | .grey => Sys2Proof.Machine.execGrey s
  | .sepia => Sys2Proof.Machine.execSepia s
  | .tint => Sys2Proof.Machine.execTint s
  | .poster => Sys2Proof.Machine.execPoster s
  | .mosaic => Sys2Proof.Machine.execMosaic s
  | .convBox => Sys2Proof.Machine.execConvBox s
  | .convEdges => Sys2Proof.Machine.execConvEdges s
  | .convEmboss => Sys2Proof.Machine.execConvEmboss s
  | .convSharpen => Sys2Proof.Machine.execConvSharpen s
  | .convMatrix => Sys2Proof.Machine.execConvMatrix s
  | .convMatrixN => Sys2Proof.Machine.execConvMatrixN s
  | .gblur => Sys2Proof.Machine.execGblur s
  | .defaults => Sys2Proof.Machine.execDefaults s

end Sys2Proof.Machine
end

