-- ==== Sys2Proof/Machine/Engine.lean ====
section
/-! DEFINITION. One turn of the schedule: the engine's step on the latched command, and the host's transactions
(44_dispatch.md R222, R225; 20_memory.md R60, R76). -/

namespace Sys2Proof.Machine

/-- A command is running and the block is out of reset (44_dispatch.md R221, 70_reset_and_hazards.md R280). -/
def engineActive (s : State) : Bool := s.busy && !s.rst

/-- Run the latched command: check 1, decode, then the command (44_dispatch.md R220, R225). -/
def runCommand (s : State) : Host.Outcome State Fault Refusal :=
  match decode s.cmd with
  | .ok i => exec i s
  | .error _ => .next (raiseError .unknownFilter 0x01C s)

/-- The engine's turn: one whole command if one is running, else nothing (44_dispatch.md R222, 70_reset_and_hazards.md
R281; log 1). -/
def engineTurn (s : State) : Host.Outcome State Fault Refusal :=
  if engineActive s then runCommand s else .next s

/-- Take one turn (log 1). -/
def takeTurn (t : Turn) (s : State) : Host.Outcome State Fault Refusal :=
  match t with
  | .read size off => .next (busRead s size off)
  | .write size off v => .next (busWrite s size off v)
  | .rst level => .next (driveRst s level)
  | .engine => engineTurn s

/-- The command word `w` latched as a command start leaves it, with `rst` low and the engine's turn next (log 3). -/
def placeCommand (w : Word) (s : State) : State :=
  { startCommand w s with rst := false, turns := .engine :: s.turns }

end Sys2Proof.Machine
end

