-- ==== Sys2Proof/Machine/Step.lean ====
section
/-! DEFINITION. One step of the machine: the first turn of the schedule, or the engine's turn when the schedule is
empty (log 1, 2). -/

namespace Sys2Proof.Machine

/-- One step. With no turn left the engine moves, so a started command always ends (70_reset_and_hazards.md R297). -/
def step (s : State) : Host.Outcome State Fault Refusal :=
  match s.turns with
  | [] => engineTurn s
  | t :: ts => takeTurn t { s with turns := ts }

/-- `s` with the command word of `nbits` bits latched so that the next step runs it (log 3). -/
def State.withFetchWord (s : State) (nbits w : Nat) : State := placeCommand (commandWord nbits w) s

end Sys2Proof.Machine
end

