-- ==== Sys2Proof/Safety.lean ====
section
/-! DEFINITION. What counts as a safe run, in the terms the claims use: the state invariant, the operand table of
44_dispatch.md R227 written apart from the meanings, when a command runs to completion, and what completion leaves. -/

namespace Sys2Proof.Safety

open Sys2Proof.Machine

/-! ### The invariant -/

/-- The command word is legal (30_encoding.md R94). -/
def legalWord (w : Word) : Bool := (CmdFields.ofWord w).wellFormed

/-- What every step keeps: canonical memories, exclusive completion flags, an error record that agrees with ERR and with
the command word, and a block held idle in reset. -/
structure Invariant (s : State) : Prop where
  /-- KW in canonical form, inside its 648 bytes (10_state.md R37). -/
  kwWf : Memory.wf (Config.spaceBytes .kw) s.kw = true
  /-- GT in canonical form, inside its 2040 bytes (10_state.md R38). -/
  gtWf : Memory.wf (Config.spaceBytes .gt) s.gt = true
  /-- IN_MEM in canonical form, inside MEM_BYTES (10_state.md R39). -/
  inWf : Memory.wf (Config.spaceBytes .inMem) s.inMem = true
  /-- OUT_MEM in canonical form, inside MEM_BYTES (10_state.md R40). -/
  outWf : Memory.wf (Config.spaceBytes .outMem) s.outMem = true
  /-- At most one of BUSY, DONE and ERR is 1 (10_state.md R33). -/
  exclusive : s.busy.toNat + s.done.toNat + s.err.toNat ≤ 1
  /-- ERR_CODE is 0 exactly when ERR = 0 (10_state.md R33). -/
  codeIffErr : s.errCode = none ↔ s.err = false
  /-- ERR_INFO is 0 when no error is recorded (10_state.md R34). -/
  infoZero : s.err = false → s.errInfo = 0
  /-- A recorded error is UnknownFilter exactly when the failed word is illegal (44_dispatch.md R225, R237). -/
  unknownIff : s.err = true → (s.errCode = some .unknownFilter ↔ legalWord s.cmd = false)
  /-- Only a legal word completes with DONE (44_dispatch.md R220, R225). -/
  doneLegal : s.done = true → legalWord s.cmd = true
  /-- While `rst` is high no command runs and nothing is reported (70_reset_and_hazards.md R280, R282). -/
  heldIdle : s.rst = true → s.busy = false ∧ s.done = false ∧ s.err = false

/-! ### When a command runs to completion -/

/-- Check 2 passes: the length matches and the buffer fits (44_dispatch.md R226). -/
def BufferFits (s : State) : Prop :=
  bufW s * bufH s * 4 = s.dataLen.toNat ∧ bufW s * bufH s * 4 ≤ Config.memBytes

/-- Every source byte has been written (70_reset_and_hazards.md R285 step 3). -/
def InputWritten (s : State) : Prop := ∀ a, a < bufBytes s → (Memory.read s.inMem a).isSome = true

/-- Weight entry `j` of a memory has been written, all 8 bytes (40_blender.md R111). -/
def entryWritten (m : Memory) (j : Nat) : Bool := (loadWritten m (8 * j) 8).isSome

/-- The pattern of weight entry `j`, 0 where unwritten. -/
def entryPattern (m : Memory) (j : Nat) : F64 := BitVec.ofNat 64 ((loadWritten m (8 * j) 8).getD 0)

/-- Weight entry `j` is written and finite. -/
def entryFinite (m : Memory) (j : Nat) : Bool := entryWritten m j && f64Finite (entryPattern m j)

/-- The exact values of weight entries 0 to `n - 1` (42_convolution.md R184, 43_gaussian.md R200). -/
def entryValues (m : Memory) (n : Nat) : List Rat := (List.range n).map fun j => f64val (entryPattern m j)

/-- KSIZE, the custom-matrix size. -/
def ksizeOf (s : State) : Nat := s.params.ksize.toNat

/-- GLEN, the tap count. -/
def glenOf (s : State) : Nat := s.params.glen.toNat

/-- The sepia weight of input channel `j` in output channel `i` (10_state.md R27). -/
def sepiaWeight (s : State) (i j : Nat) : Rat := f64val (s.params.sepCoef.toList.getD (3 * i + j) 0)

/-- The exact amount of a command (40_blender.md R115). -/
def amountOf (s : State) (a : Amount) : Rat := f64val (amountReg s.params a)

/-- The commands that have an amount register, with it (44_dispatch.md R227). -/
def amountUsed : Instr → Option Amount
  | .grey => some .grey
  | .sepia => some .sepia
  | .tint => some .tint
  | .poster => some .poster
  | .mosaic => some .mosaic
  | .convBox => some .box
  | .convEdges => some .edges
  | .convEmboss => some .emboss
  | .convSharpen => some .sharpen
  | .convMatrix => some .matrix
  | .convMatrixN => some .matrix
  | .gblur => none
  | .defaults => none

/-- One check of an amount register: its offset and whether its pattern is finite. -/
def amountCheck (s : State) (off : Nat) (i : Fin 10) : Nat × Bool := (off, f64Finite s.params.amounts[i])

/-- The operand checks of each command in order: offset and whether the check holds (44_dispatch.md R227). -/
def operandChecks (s : State) : Instr → List (Nat × Bool)
  | .grey =>
    [amountCheck s 0x080 0, (0x100, f64Finite s.params.lumCoef[0]), (0x108, f64Finite s.params.lumCoef[1]),
     (0x110, f64Finite s.params.lumCoef[2])]
  | .sepia =>
    amountCheck s 0x088 1 :: (List.finRange 9).map fun i => (0x120 + 8 * i.val, f64Finite s.params.sepCoef[i])
  | .tint => [(0x040, (parseTint s.params.tintHex0 s.params.tintHex1).isSome), amountCheck s 0x090 2]
  | .poster => [(0x034, decide (2 ≤ s.params.posterLevels.toNat)), amountCheck s 0x098 3]
  | .mosaic => [(0x038, decide (1 ≤ s.params.mosaicSize.toNat)), amountCheck s 0x0A0 4]
  | .convBox => [amountCheck s 0x0A8 5]
  | .convEdges => [amountCheck s 0x0B0 6]
  | .convEmboss => [amountCheck s 0x0B8 7]
  | .convSharpen => [amountCheck s 0x0C0 8]
  | .convMatrix | .convMatrixN =>
    (0x02C, decide (ksizeOf s % 2 = 1 ∧ 3 ≤ ksizeOf s ∧ ksizeOf s ≤ Config.maxKsize)) :: amountCheck s 0x0C8 9 ::
      (List.range (ksizeOf s * ksizeOf s)).map fun j => (0x400 + 8 * j, entryFinite s.kw j)
  | .gblur =>
    (0x030, decide (glenOf s % 2 = 1 ∧ 1 ≤ glenOf s ∧ glenOf s ≤ Config.maxGtaps)) ::
      (List.range (glenOf s)).map fun j => (0x800 + 8 * j, entryFinite s.gt j)
  | .defaults => []

/-- The offset of the first check that fails. -/
def firstFailing (cs : List (Nat × Bool)) : Option Nat := (cs.find? fun c => !c.2).map Prod.fst

/-- Check 4 passes: no zero sum where normalization is requested of host-supplied weights (44_dispatch.md R228). -/
def SumNonzero (s : State) : Instr → Prop
  | .convMatrixN => (entryValues s.kw (ksizeOf s * ksizeOf s)).sum ≠ 0
  | .gblur => (entryValues s.gt (glenOf s)).sum ≠ 0
  | _ => True

/-- The boot contract of a command met, so that it has a defined result: checks 2 to 4 pass and everything it reads is
written (70_reset_and_hazards.md R285). -/
structure Ready (i : Instr) (s : State) : Prop where
  buffer : BufferFits s
  operands : firstFailing (operandChecks s i) = none
  sum : SumNonzero s i
  input : InputWritten s

/-! ### What a command leaves -/

/-- Successful completion of a pixel command and its whole frame: DONE set, BUSY clear, OUT_MEM bytes at or above
W*H*4 kept, and every other part of the state unchanged (44_dispatch.md R229, R231). -/
def Completed (s t : State) : Prop :=
  t = { s with done := true, busy := false, outMem := t.outMem } ∧
    ∀ a, bufBytes s ≤ a → Memory.read t.outMem a = Memory.read s.outMem a

/-- OUT_MEM of `t` shows `f x y c` in colour lane `c` of every pixel of the buffer and the source alpha in its alpha lane
(20_memory.md R66, 40_blender.md R119). -/
def Shows (s t : State) (f : Nat → Nat → Nat → Nat) : Prop :=
  ∀ x y, x < bufW s → y < bufH s →
    (∀ c, c < 3 → (Memory.read t.outMem (pixelOffset (bufW s) x y c)).map BitVec.toNat = some (f x y c)) ∧
      Memory.read t.outMem (pixelOffset (bufW s) x y 3) = Memory.read s.inMem (pixelOffset (bufW s) x y 3)

/-- The record an error leaves, and its whole frame (44_dispatch.md R224, 60_exceptions.md R254, R257). -/
def failed (k : ErrKind) (info : Word) (s : State) : State :=
  { s with errCode := some k, errInfo := info, err := true, busy := false }

/-! ### Host accesses -/

/-- A supported transaction: naturally aligned, and 4 bytes in register space or any size in a pixel window
(20_memory.md R62 to R64). -/
def supported (size : Size) (off : BitVec 22) : Bool :=
  decide (off.toNat % sizeBytes size = 0) &&
    ((decide (off.toNat < 0x100000) && size == .b4) ||
      (decide (0x100000 ≤ off.toNat) && decide (off.toNat < 0x300000)))

/-- The register offsets that hold operands and results of the host's own making: every writable register but CTRL,
STATUS and CMD (20_memory.md R72). -/
def dataRegister (off : Nat) : Bool :=
  decide (off % 4 = 0) &&
    ((decide (0x020 ≤ off) && decide (off < 0x03C)) || (decide (0x040 ≤ off) && decide (off < 0x048)) ||
      (decide (0x080 ≤ off) && decide (off < 0x0D0)) || (decide (0x100 ≤ off) && decide (off < 0x118)) ||
      (decide (0x120 ≤ off) && decide (off < 0x168)) || (decide (0x400 ≤ off) && decide (off < 0x688)) ||
      (decide (0x800 ≤ off) && decide (off < 0xFF8)))

/-- A 32-bit register that holds `r` stands at `off`: a 4-byte read returns `r`, and a 4-byte write of an idle block has
exactly the effect `write` (20_memory.md R62, R72). -/
def RegisterAt (s : State) (off : BitVec 22) (r : Word) (write : Word → State) : Prop :=
  (busRead s .b4 off).rdata = r ∧ ∀ v, s.busy = false → busWrite s .b4 off v = write v

/-- A 64-bit register that holds `b` stands at `off`, its low half there and its high half at `off + 4`, each written
without the other (20_memory.md R65). -/
def HalvesAt (s : State) (off : Nat) (b : F64) (write : F64 → State) : Prop :=
  RegisterAt s (BitVec.ofNat 22 off) (b.extractLsb' 0 32) (fun v => write (b.extractLsb' 32 32 ++ v)) ∧
    RegisterAt s (BitVec.ofNat 22 (off + 4)) (b.extractLsb' 32 32) (fun v => write (v ++ b.extractLsb' 0 32))

/-- The weight memory `mem` of `entries` entries stands from `base` on: a 4-byte access reaches the bytes at its distance
from `base`, and the two halves of entry `i` are at `base + 8 * i` and 4 above (10_state.md R37, R38; 20_memory.md
R65). -/
def WeightsAt (s : State) (base entries : Nat) (mem : State → Memory) (write : Memory → State) : Prop :=
  (∀ off : BitVec 22, base ≤ off.toNat → off.toNat < base + 8 * entries → off.toNat % 4 = 0 →
    (∀ k b, k < 4 → Memory.read (mem s) (off.toNat - base + k) = some b →
      (busRead s .b4 off).rdata.extractLsb' (8 * k) 8 = b) ∧
    ∀ v, s.busy = false → ∃ m, busWrite s .b4 off v = write m ∧
      ∀ a, Memory.read m a =
        if off.toNat - base ≤ a ∧ a < off.toNat - base + 4 then some (v.extractLsb' (8 * (a - (off.toNat - base))) 8)
        else Memory.read (mem s) a) ∧
  ∀ i lo hi, i < entries → s.busy = false →
    let t := busWrite (busWrite s .b4 (BitVec.ofNat 22 (base + 8 * i)) lo) .b4 (BitVec.ofNat 22 (base + 8 * i + 4)) hi
    entryWritten (mem t) i = true ∧ entryPattern (mem t) i = hi ++ lo

/-- The 4 bytes of a tint word, first string byte lowest (10_state.md R24). -/
def tintWord (b0 b1 b2 b3 : Byte) : Word := b3 ++ b2 ++ b1 ++ b0

/-- A poll: a host read of STATUS (30_encoding.md R97, WAIT). -/
def poll : Turn := .read .b4 0x014

/-- A turn that resets the block: `rst` driven high, or low from high, or a supported CTRL write with SRST = 1
(70_reset_and_hazards.md R280, R283). -/
def resetsBlock (s : State) : Turn → Bool
  | .rst level => s.rst || level
  | .write .b4 off v => !s.rst && (off == 0x010) && v.getLsbD 1
  | _ => false

end Sys2Proof.Safety
end

