-- ==== Sys2Proof/Certificates/Slice0/Obligations.lean ====
section
/-! DEFINITION. The statements for the provers, from the numbered rules of spec/. Each docstring names the rule or the
sections it rests on. `Ready i s` is the boot contract of a command; `Completed` and `Shows` are its frame and output
(Safety.lean). -/

open Sys2Proof Sys2Proof.Machine Sys2Proof.Safety

/-! ### Encoding -/

/-- The words of 30_encoding.md R93 and some illegal words of R95 and R96, decoded. -/
def Obligations.WrittenWordsDecode : Prop :=
  decode 0x00000001 = .ok .grey ∧ decode 0x00000002 = .ok .sepia ∧ decode 0x00000003 = .ok .tint ∧
  decode 0x00000004 = .ok .poster ∧ decode 0x00000005 = .ok .mosaic ∧ decode 0x00000010 = .ok .convBox ∧
  decode 0x00000011 = .ok .convEdges ∧ decode 0x00000012 = .ok .convEmboss ∧ decode 0x00000013 = .ok .convSharpen ∧
  decode 0x00000014 = .ok .convMatrix ∧ decode 0x00000114 = .ok .convMatrixN ∧ decode 0x00000018 = .ok .gblur ∧
  decode 0x00000020 = .ok .defaults ∧ decode 0x00000000 = .error .unassignedOpcode ∧
  decode 0x00000006 = .error .noiseOpcode ∧ decode 0x00000101 = .error .strayNormalize ∧
  decode 0x00000120 = .error .strayNormalize ∧ decode 0x00000214 = .error .reservedBits ∧
  decode 0x80000001 = .error .reservedBits

/-- Decode and encode agree: every command decodes from its word, and no other word decodes to it
(30_encoding.md sections 1 and 2). -/
def Obligations.DecodeInvertsEncode : Prop :=
  (∀ i, decode (encode i) = .ok i) ∧ ∀ w i, decode w = .ok i → encode i = w

/-- 30_encoding.md R94: the decoder accepts exactly the words with RSV = 0, an assigned OP, and N = 0 unless
OP = 0x14, and rejects every other word. -/
def Obligations.LegalWordsByFields : Prop :=
  ∀ w : Word,
    ((∃ i, decode w = .ok i) ↔
      w.extractLsb' 9 23 = 0 ∧
      w.extractLsb' 0 8 ∈
        ([0x01, 0x02, 0x03, 0x04, 0x05, 0x10, 0x11, 0x12, 0x13, 0x14, 0x18, 0x20] : List (BitVec 8)) ∧
      (w.getLsbD 8 = true → w.extractLsb' 0 8 = 0x14)) ∧
    ((∃ r, decode w = .error r) ↔ ¬ ∃ i, decode w = .ok i)

/-! ### The step -/

/-- The engine's turn runs the latched command: `step` is `exec` of the decoded command, or the UnknownFilter record of a
word that does not decode, on the state with the turn taken off the schedule (44_dispatch.md sections 1 and 2). The
schedule is the model's (log 1), and so is the engine's move on an empty one (log 2); the last clause is the model's way
of placing a command (log 3). -/
def Obligations.StepRunsTheLatchedCommand : Prop :=
  (∀ s i, s.busy = true → s.rst = false → decode s.cmd = .ok i →
    (s.turns = [] → step s = exec i s) ∧
    ∀ ts, s.turns = .engine :: ts → step s = exec i { s with turns := ts }) ∧
  (∀ s r, s.busy = true → s.rst = false → decode s.cmd = .error r →
    (s.turns = [] → step s = .next (failed .unknownFilter 0x01C s)) ∧
    ∀ ts, s.turns = .engine :: ts → step s = .next (failed .unknownFilter 0x01C { s with turns := ts })) ∧
  ∀ s i, step (s.withFetchWord 32 (encode i).toNat) = exec i { startCommand (encode i) s with rst := false }

/-- A host turn is one bus transaction or one level of `rst`, performed whole in one step (20_memory.md section 1). -/
def Obligations.StepPerformsOneHostTurn : Prop :=
  ∀ s ts,
    (∀ size off, s.turns = .read size off :: ts → step s = .next (busRead { s with turns := ts } size off)) ∧
    (∀ size off v, s.turns = .write size off v :: ts → step s = .next (busWrite { s with turns := ts } size off v)) ∧
    ∀ level, s.turns = .rst level :: ts → step s = .next (driveRst { s with turns := ts } level)

/-- 70_reset_and_hazards.md R281: the block is idle after reset, and an idle block does nothing of itself. -/
def Obligations.IdleBlockDoesNothing : Prop :=
  State.reset.busy = false ∧
  ∀ s, s.busy = false →
    (s.turns = [] → step s = .next s) ∧ ∀ ts, s.turns = .engine :: ts → step s = .next { s with turns := ts }

/-- 44_dispatch.md R221 and 10_state.md R41: the only way a command starts is a supported 4-byte CMD write while no
command runs, and the start is R223's. -/
def Obligations.OnlyCmdWriteStartsACommand : Prop :=
  ∀ s t, step s = .next t → s.busy = false → t.busy = true →
    ∃ v ts, s.turns = .write .b4 0x01C v :: ts ∧ s.rst = false ∧ t = startCommand v { s with turns := ts }

/-- 44_dispatch.md R225, 60_exceptions.md R252: writing any illegal word to CMD of an idle block starts a command that
the engine ends with UnknownFilter, ERR_INFO = 0x01C, and nothing else changed. It is said of the CMD write and the
engine's turn themselves, whatever schedule leads from one to the other. -/
def Obligations.IllegalWordFailsAsUnknownFilter : Prop :=
  ∀ s w, s.busy = false → s.rst = false →
    ¬ (w.extractLsb' 9 23 = 0 ∧
      w.extractLsb' 0 8 ∈
        ([0x01, 0x02, 0x03, 0x04, 0x05, 0x10, 0x11, 0x12, 0x13, 0x14, 0x18, 0x20] : List (BitVec 8)) ∧
      (w.getLsbD 8 = true → w.extractLsb' 0 8 = 0x14)) →
    engineTurn (busWrite s .b4 0x01C w) =
      .next { s with
        cmd := w, done := false, busy := false, err := true
        errCode := some .unknownFilter, errInfo := 0x01C }

/-! ### Numbers and the blender -/

/-- The exact value of a finite pattern: (-1)^s * f * 2^-1074 when e = 0, (-1)^s * (2^52 + f) * 2^(e - 1075) otherwise;
finite means e is not 0x7FF (40_blender.md section 1). -/
def Obligations.BinarySixtyFourValues : Prop :=
  ∀ b : F64,
    let sgn : Rat := if b.getLsbD 63 then -1 else 1
    let e := (b.extractLsb' 52 11).toNat
    let f := (b.extractLsb' 0 52).toNat
    (f64Finite b = true ↔ e ≠ 0x7FF) ∧
    (e = 0 → f64val b = sgn * (f : Rat) * (2 : Rat) ^ (-1074 : Int)) ∧
    (e ≠ 0 → f64val b = sgn * ((2 : Rat) ^ 52 + (f : Rat)) * (2 : Rat) ^ ((e : Int) - 1075))

/-- 40_blender.md R113, R114, R115: the blend is `floor(min(max(a*c + (1-a)*o, 0), 255) + 1/2)`, an integer 0..255. -/
def Obligations.BlendIsTheRoundedClampedMix : Prop :=
  ∀ (a c : Rat) (o : Nat),
    ((blend a c o : Nat) : Int) = ⌊min (max (a * c + (1 - a) * (o : Rat)) 0) 255 + 1 / 2⌋ ∧ blend a c o ≤ 255

/-- 40_blender.md R116: the corner cases of the blend. -/
def Obligations.BlendCornerCases : Prop :=
  ∀ (a c : Rat) (o : Nat), o ≤ 255 →
    blend 0 c o = o ∧
    ((blend 1 c o : Nat) : Int) = roundhu (clampQ c 0 255) ∧
    blend a o o = o ∧
    (a * c + (1 - a) * (o : Rat) < 0 → blend a c o = 0) ∧
    (255 < a * c + (1 - a) * (o : Rat) → blend a c o = 255) ∧
    ∀ k : Nat, k ≤ 254 → a * c + (1 - a) * (o : Rat) = (k : Rat) + 1 / 2 → blend a c o = k + 1

/-! ### Every command: completion, result and frame -/

/-- A pixel command whose boot contract is met completes, with its whole frame; an empty buffer writes nothing
(44_dispatch.md section 3, 70_reset_and_hazards.md section 3). -/
def Obligations.ReadyPixelCommandCompletes : Prop :=
  ∀ i s, i ≠ .defaults → Ready i s →
    ∃ t, exec i s = .next t ∧ Completed s t ∧ (bufW s * bufH s = 0 → t.outMem = s.outMem) ∧
      ∀ a, a < bufW s * bufH s * 4 → (Memory.read t.outMem a).isSome = true

/-- GREY: each lane blends toward the exact luminance (41_perpixel.md section 2). -/
def Obligations.GreyBlendsTowardLuminance : Prop :=
  ∀ s, Ready .grey s →
    ∃ t, exec .grey s = .next t ∧ Completed s t ∧
      Shows s t fun x y c =>
        blend (amountOf s .grey)
          (f64val s.params.lumCoef[0] * inCh s x y 0 + f64val s.params.lumCoef[1] * inCh s x y 1
            + f64val s.params.lumCoef[2] * inCh s x y 2)
          (inCh s x y c)

/-- SEPIA: each lane blends toward its row of the sepia matrix applied to the original R, G, B (41_perpixel.md
section 3). -/
def Obligations.SepiaBlendsTowardTheMatrixRow : Prop :=
  ∀ s, Ready .sepia s →
    ∃ t, exec .sepia s = .next t ∧ Completed s t ∧
      Shows s t fun x y i =>
        blend (amountOf s .sepia) (∑ j ∈ Finset.range 3, sepiaWeight s i j * (inCh s x y j : Rat)) (inCh s x y i)

/-- TINT: each lane blends toward the parsed colour, three values 0..255 (41_perpixel.md section 4). -/
def Obligations.TintBlendsTowardTheParsedColour : Prop :=
  ∀ s, Ready .tint s →
    ∃ tR tG tB t, parseTint s.params.tintHex0 s.params.tintHex1 = some [tR, tG, tB] ∧
      tR ≤ 255 ∧ tG ≤ 255 ∧ tB ≤ 255 ∧ exec .tint s = .next t ∧ Completed s t ∧
      Shows s t fun x y c =>
        blend (amountOf s .tint) ((if c = 0 then tR else if c = 1 then tG else tB : Nat) : Rat) (inCh s x y c)

/-- POSTER: each lane blends toward `floor(255 * floor(c*n/256) / (n-1))` (41_perpixel.md section 5). -/
def Obligations.PosterBlendsTowardTheLevel : Prop :=
  ∀ s, Ready .poster s →
    ∃ t, exec .poster s = .next t ∧ Completed s t ∧
      Shows s t fun x y c =>
        blend (amountOf s .poster)
          ((255 * (inCh s x y c * s.params.posterLevels.toNat / 256) / (s.params.posterLevels.toNat - 1) : Nat) : Rat)
          (inCh s x y c)

/-- MOSAIC: each lane blends toward the block's top-left pixel, the pixel's own alpha kept (41_perpixel.md section 6). -/
def Obligations.MosaicBlendsTowardTheAnchor : Prop :=
  ∀ s, Ready .mosaic s →
    ∃ t, exec .mosaic s = .next t ∧ Completed s t ∧
      Shows s t fun x y c =>
        blend (amountOf s .mosaic)
          (inCh s (x - x % s.params.mosaicSize.toNat) (y - y % s.params.mosaicSize.toNat) c : Rat) (inCh s x y c)

/-- The four presets: box with weights 1/9, edges unnormalized, emboss and sharpen with their own weights
(42_convolution.md section 3). -/
def Obligations.PresetsConvolveTheirKernels : Prop :=
  ∀ s,
    (Ready .convBox s → ∃ t, exec .convBox s = .next t ∧ Completed s t ∧
      Shows s t fun x y c => blend (amountOf s .box)
        (convSum s 3 [1/9, 1/9, 1/9, 1/9, 1/9, 1/9, 1/9, 1/9, 1/9] x y c) (inCh s x y c)) ∧
    (Ready .convEdges s → ∃ t, exec .convEdges s = .next t ∧ Completed s t ∧
      Shows s t fun x y c => blend (amountOf s .edges)
        (convSum s 3 [0, 1, 0, 1, -4, 1, 0, 1, 0] x y c) (inCh s x y c)) ∧
    (Ready .convEmboss s → ∃ t, exec .convEmboss s = .next t ∧ Completed s t ∧
      Shows s t fun x y c => blend (amountOf s .emboss)
        (convSum s 3 [-2, -1, 0, -1, 1, 1, 0, 1, 2] x y c) (inCh s x y c)) ∧
    (Ready .convSharpen s → ∃ t, exec .convSharpen s = .next t ∧ Completed s t ∧
      Shows s t fun x y c => blend (amountOf s .sharpen)
        (convSum s 3 [-1, -1, -1, -1, 9, -1, -1, -1, -1] x y c) (inCh s x y c))

/-- CONV.MATRIX applies the KW weights as written; CONV.MATRIX.N divides them by their sum first
(42_convolution.md section 3). -/
def Obligations.MatrixConvolvesTheKernelMemory : Prop :=
  ∀ s,
    (Ready .convMatrix s → ∃ t, exec .convMatrix s = .next t ∧ Completed s t ∧
      Shows s t fun x y c => blend (amountOf s .matrix)
        (convSum s (ksizeOf s) (entryValues s.kw (ksizeOf s * ksizeOf s)) x y c) (inCh s x y c)) ∧
    (Ready .convMatrixN s → ∃ t, exec .convMatrixN s = .next t ∧ Completed s t ∧
      Shows s t fun x y c => blend (amountOf s .matrix)
        (convSum s (ksizeOf s)
          ((entryValues s.kw (ksizeOf s * ksizeOf s)).map
            (fun w => w / (entryValues s.kw (ksizeOf s * ksizeOf s)).sum)) x y c) (inCh s x y c))

/-- GBLUR: two passes of the normalized taps, the intermediate exact, blended with amount 1 (43_gaussian.md
section 2). -/
def Obligations.BlurRunsBothPasses : Prop :=
  ∀ s, Ready .gblur s →
    ∃ t, exec .gblur s = .next t ∧ Completed s t ∧
      Shows s t fun x y c =>
        let n := glenOf s
        let g := entryValues s.gt n
        let rho : Int := ((n : Int) - 1) / 2
        let cx := fun i : Int => (max 0 (min i ((bufW s : Int) - 1))).toNat
        let cy := fun j : Int => (max 0 (min j ((bufH s : Int) - 1))).toNat
        let row := fun y' : Nat =>
          ∑ i ∈ Finset.range n, g.getD i 0 / g.sum * (inCh s (cx ((x : Int) + i - rho)) y' c : Rat)
        blend 1 (∑ j ∈ Finset.range n, g.getD j 0 / g.sum * row (cy ((y : Int) + j - rho))) (inCh s x y c)

/-- 44_dispatch.md R236: DEFAULTS, word 0x20, always completes; every parameter register takes its reset value and
nothing else changes; doing it again changes nothing. -/
def Obligations.DefaultsRestoresTheParameters : Prop :=
  decode 0x00000020 = .ok .defaults ∧
  ∀ s, ∃ t, exec .defaults s = .next t ∧ exec .defaults t = .next t ∧
    t = { s with
      done := true
      busy := false
      params := {
        ksize := 3, glen := 1, posterLevels := 5, mosaicSize := 5
        tintHex0 := 0x46464623, tintHex1 := 0x00464646
        amounts := #v[0x3FF0000000000000, 0x3FF0000000000000, 0x3FD3333333333333, 0x3FF0000000000000,
          0x3FF0000000000000, 0x3FF0000000000000, 0x3FF0000000000000, 0x3FD0000000000000,
          0x3FD0000000000000, 0x3FF0000000000000]
        lumCoef := #v[0x3FCAE147AE147AE1, 0x3FE6B851EB851EB8, 0x3FB1EB851EB851EC]
        sepCoef := #v[0x3FD926E978D4FDF4, 0x3FE89BA5E353F7CF, 0x3FC83126E978D4FE, 0x3FD65604189374BC,
          0x3FE5F3B645A1CAC1, 0x3FC5810624DD2F1B, 0x3FD16872B020C49C, 0x3FE116872B020C4A, 0x3FC0C49BA5E353F8] } }

/-! ### Errors -/

/-- 44_dispatch.md R226: a pixel command first compares W * H * 4, exact, with DATA_LEN and then with MEM_BYTES. -/
def Obligations.BufferCheckRaisesInvalidBuffer : Prop :=
  ∀ i s, i ≠ .defaults →
    (s.width.toNat * s.height.toNat * 4 ≠ s.dataLen.toNat → exec i s = .next (failed .invalidBuffer 0x028 s)) ∧
    (s.width.toNat * s.height.toNat * 4 = s.dataLen.toNat → 0x100000 < s.width.toNat * s.height.toNat * 4 →
      exec i s = .next (failed .invalidBuffer 0x020 s))

/-- 44_dispatch.md R227: after a passed buffer check, the first operand check of the command's table that fails gives
InvalidParameter with its offset and changes nothing else (weight entries up to that offset written). -/
def Obligations.FirstBadOperandRaisesInvalidParameter : Prop :=
  ∀ i s off, BufferFits s → firstFailing (operandChecks s i) = some off →
    (i = .convMatrix ∨ i = .convMatrixN →
      ∀ j, j < ksizeOf s * ksizeOf s → 0x400 + 8 * j ≤ off → entryWritten s.kw j = true) →
    (i = .gblur → ∀ j, j < glenOf s → 0x800 + 8 * j ≤ off → entryWritten s.gt j = true) →
    exec i s = .next (failed .invalidParameter (BitVec.ofNat 32 off) s)

/-- 44_dispatch.md R228: a zero sum where normalization is requested gives InvalidBuffer at 0x400 or 0x800; no preset
can fail so. -/
def Obligations.ZeroSumRaisesInvalidBuffer : Prop :=
  ∀ s, BufferFits s →
    (firstFailing (operandChecks s .convMatrixN) = none →
      (entryValues s.kw (ksizeOf s * ksizeOf s)).sum = 0 →
      exec .convMatrixN s = .next (failed .invalidBuffer 0x400 s)) ∧
    (firstFailing (operandChecks s .gblur) = none → (entryValues s.gt (glenOf s)).sum = 0 →
      exec .gblur s = .next (failed .invalidBuffer 0x800 s)) ∧
    ∀ i, i = .convBox ∨ i = .convEdges ∨ i = .convEmboss ∨ i = .convSharpen →
      ∀ t, exec i s = .next t → t.errCode ≠ some .invalidBuffer ∨ t.errCode = s.errCode

/-- 44_dispatch.md R230: a command that ends in an error leaves OUT_MEM and everything else as it was; a command ends
with the error record, or with every byte of its output written and the frame of success, or (DEFAULTS) with every
parameter register at its reset value. -/
def Obligations.CommandEndsWholeOrNotAtAll : Prop :=
  ∀ i s t, exec i s = .next t →
    (∃ k info, t = failed k info s) ∨
      (i ≠ .defaults ∧ Completed s t ∧
        ∀ a, a < bufW s * bufH s * 4 → (Memory.read t.outMem a).isSome = true) ∨
      (i = .defaults ∧ t = { s with done := true, busy := false, params := Params.reset })

/-- 44_dispatch.md R231: a successful pixel command writes every byte of OUT_MEM below W*H*4 (each holds a value that
does not depend on what OUT_MEM held), none above, and never IN_MEM. -/
def Obligations.SuccessWritesExactlyTheBuffer : Prop :=
  ∀ i s t, i ≠ .defaults → s.err = false → exec i s = .next t → t.err = false →
    (∀ a, a < bufW s * bufH s * 4 → (Memory.read t.outMem a).isSome = true) ∧
    (∀ m, ∃ t', exec i { s with outMem := m } = .next t' ∧
      ∀ a, a < bufW s * bufH s * 4 → Memory.read t'.outMem a = Memory.read t.outMem a) ∧
    (∀ a, bufW s * bufH s * 4 ≤ a → Memory.read t.outMem a = Memory.read s.outMem a) ∧ t.inMem = s.inMem

/-- A command that would read unwritten storage stops the model: the lowest unwritten source byte once the checks pass,
or the first unwritten weight entry the checks reach (40_blender.md section 1). The model's own are: that an entry with
any byte unwritten, a half-written one too, counts as unwritten (log 6), and the order of stops and errors (log 10). -/
def Obligations.UnwrittenStorageStopsTheModel : Prop :=
  (∀ i s a, i ≠ .defaults → BufferFits s → firstFailing (operandChecks s i) = none → SumNonzero s i →
    a < bufBytes s → Memory.read s.inMem a = none →
    (∀ b, b < a → (Memory.read s.inMem b).isSome = true) →
    exec i s = .fault (.unwrittenStorage .inMem a)) ∧
  (∀ i s j, i = .convMatrix ∨ i = .convMatrixN → BufferFits s →
    firstFailing (operandChecks s i) = some (0x400 + 8 * j) → entryWritten s.kw j = false →
    exec i s = .fault (.unwrittenStorage .kw (8 * j))) ∧
  ∀ s j, BufferFits s → firstFailing (operandChecks s .gblur) = some (0x800 + 8 * j) → entryWritten s.gt j = false →
    exec .gblur s = .fault (.unwrittenStorage .gt (8 * j))

/-- 60_exceptions.md R262: the same command on the state an error left fails the same way again. -/
def Obligations.FailedCommandFailsAlikeAgain : Prop :=
  ∀ i s t w, s.err = false → exec i s = .next t → t.err = true →
    ∃ u, exec i (startCommand w t) = .next u ∧ u.err = true ∧ u.errCode = t.errCode ∧ u.errInfo = t.errInfo ∧
      u.outMem = s.outMem

/-- 10_state.md R44: the outcome depends only on the command, the registers, the weight memories and IN_MEM: two states
that agree on them end alike, whatever OUT_MEM held. -/
def Obligations.OutcomeDependsOnlyOnOperands : Prop :=
  ∀ i s s' t, s'.width = s.width → s'.height = s.height → s'.dataLen = s.dataLen → s'.params = s.params →
    s'.kw = s.kw → s'.gt = s.gt → s'.inMem = s.inMem → s.err = false → s'.err = false → exec i s = .next t →
    ∃ t', exec i s' = .next t' ∧ t'.params = t.params ∧ t'.err = t.err ∧ t'.busy = t.busy ∧
      (t.err = true → t'.errCode = t.errCode ∧ t'.errInfo = t.errInfo ∧ t'.outMem = s'.outMem) ∧
      (t.err = false → t'.done = t.done ∧
        (i ≠ .defaults → ∀ a, a < bufBytes s → Memory.read t'.outMem a = Memory.read t.outMem a))

/-! ### Properties of the filters -/

/-- With amount 0 every command that has an amount leaves every pixel byte-for-byte unchanged (40_blender.md section 3,
95_test_vectors.md L1.1). -/
def Obligations.AmountZeroCopiesTheSource : Prop :=
  ∀ i s a, amountUsed i = some a → amountOf s a = 0 → Ready i s →
    ∃ t, exec i s = .next t ∧ ∀ b, b < bufBytes s → Memory.read t.outMem b = Memory.read s.inMem b

/-- Every pixel command passes alpha through (40_blender.md section 4). -/
def Obligations.AlphaPassesThrough : Prop :=
  ∀ i s t, i ≠ .defaults → s.err = false → exec i s = .next t → t.err = false →
    ∀ x y, x < bufW s → y < bufH s →
      Memory.read t.outMem (4 * (y * bufW s + x) + 3) = Memory.read s.inMem (4 * (y * bufW s + x) + 3)

/-- 41_perpixel.md R143: the posterized value is the document's expression evaluated exactly, and an integer 0..255. -/
def Obligations.PosterizedValueIsExact : Prop :=
  ∀ c n : Nat, c ≤ 255 → 2 ≤ n →
    ((posterValue c n : Nat) : Int) = ⌊(255 / ((n : Rat) - 1)) * ((⌊(c : Rat) / (256 / (n : Rat))⌋ : Int) : Rat)⌋ ∧
    ((posterValue c n : Nat) : Int) = ⌊255 * ((⌊(c : Rat) * n / 256⌋ : Int) : Rat) / ((n : Rat) - 1)⌋ ∧
    posterValue c n ≤ 255

/-- With amount 1 every pixel of a mosaic block has the RGB of the block's top-left pixel, and that pixel is unchanged
for every amount (41_perpixel.md section 6). -/
def Obligations.MosaicBlocksAreUniform : Prop :=
  ∀ s, Ready .mosaic s →
    ∃ t, exec .mosaic s = .next t ∧
      ∀ k bx by', k = s.params.mosaicSize.toNat → bx * k < bufW s → by' * k < bufH s → ∀ c, c < 3 →
        Memory.read t.outMem (pixelOffset (bufW s) (bx * k) (by' * k) c)
          = Memory.read s.inMem (pixelOffset (bufW s) (bx * k) (by' * k) c) ∧
        (amountOf s .mosaic = 1 → ∀ dx dy, dx < k → dy < k → bx * k + dx < bufW s → by' * k + dy < bufH s →
          Memory.read t.outMem (pixelOffset (bufW s) (bx * k + dx) (by' * k + dy) c)
            = Memory.read s.inMem (pixelOffset (bufW s) (bx * k) (by' * k) c))

/-- 41_perpixel.md R137: the hex digit value of every byte. -/
def Obligations.HexDigitValues : Prop :=
  ∀ c : Byte,
    (0x30 ≤ c.toNat → c.toNat ≤ 0x39 → hexVal c = some (c.toNat - 0x30)) ∧
    (0x41 ≤ c.toNat → c.toNat ≤ 0x46 → hexVal c = some (c.toNat - 0x41 + 10)) ∧
    (0x61 ≤ c.toNat → c.toNat ≤ 0x66 → hexVal c = some (c.toNat - 0x61 + 10)) ∧
    (c.toNat < 0x30 ∨ (0x39 < c.toNat ∧ c.toNat < 0x41) ∨ (0x46 < c.toNat ∧ c.toNat < 0x61) ∨ 0x66 < c.toNat →
      hexVal c = none)

/-- 41_perpixel.md R139: a tint string (cut at the first NUL, one '#' removed) is legal exactly with 3 or 6 bytes, all
hex digits; 3 digits are each duplicated; the colour is three values 0..255. -/
def Obligations.TintStringLegality : Prop :=
  ∀ h0 h1 : Word,
    let t := dropHash (untilNul (tintBytes h0 h1))
    ((parseTint h0 h1).isSome = true ↔
      (t.length = 3 ∨ t.length = 6) ∧ ∀ b ∈ t, (hexVal b).isSome = true) ∧
    (∀ d0 d1 d2, t.map hexVal = [some d0, some d1, some d2] →
      parseTint h0 h1 = some [16 * d0 + d0, 16 * d1 + d1, 16 * d2 + d2]) ∧
    (∀ colour, parseTint h0 h1 = some colour → colour.length = 3 ∧ ∀ v ∈ colour, v ≤ 255) ∧
    ∀ e0 e1 e2 e3 e4 e5, t.map hexVal = [some e0, some e1, some e2, some e3, some e4, some e5] →
      parseTint h0 h1 = some [16 * e0 + e1, 16 * e2 + e3, 16 * e4 + e5]

/-- A 3-digit tint string, with or without its '#', means the 6-digit string with each digit doubled, with or without
its '#'; the bytes after the first NUL, each on its own, do not matter (41_perpixel.md section 4). -/
def Obligations.ShortTintStringDoublesItsDigits : Prop :=
  ∀ a b c z0 z1 z2 z3 y : Byte, a ≠ 0x00 → a ≠ 0x23 → b ≠ 0x00 → c ≠ 0x00 →
    parseTint (tintWord a b c 0x00) (tintWord z0 z1 z2 z3) = parseTint (tintWord a a b b) (tintWord c c 0x00 y) ∧
    parseTint (tintWord 0x23 a b c) (tintWord 0x00 z0 z1 z2) = parseTint (tintWord a a b b) (tintWord c c 0x00 y) ∧
    parseTint (tintWord 0x23 a a b) (tintWord b c c 0x00) = parseTint (tintWord a a b b) (tintWord c c 0x00 y)

/-- The effective weights sum to 1 where normalization is requested of a non-zero sum, each being w / S, and are the
weights themselves where it is not requested (42_convolution.md section 1). -/
def Obligations.EffectiveWeightsAreNormalized : Prop :=
  ∀ ws : List Rat,
    (ws.sum ≠ 0 → (effectiveWeights true ws).sum = 1 ∧ effectiveWeights true ws = ws.map (fun w => w / ws.sum)) ∧
    effectiveWeights false ws = ws

/-- 42_convolution.md R179: with normalization requested, a kernel of non-zero sum and the same kernel scaled by a
non-zero rational give the same effective weights, and so identical results of CONV.MATRIX.N. -/
def Obligations.NormalizationIgnoresScale : Prop :=
  (∀ (ws : List Rat) (q : Rat), q ≠ 0 → ws.sum ≠ 0 →
    effectiveWeights true (ws.map fun w => q * w) = effectiveWeights true ws) ∧
  ∀ s kw' (q : Rat), q ≠ 0 → Ready .convMatrixN s → Ready .convMatrixN { s with kw := kw' } →
    entryValues kw' (ksizeOf s * ksizeOf s) = (entryValues s.kw (ksizeOf s * ksizeOf s)).map (fun w => q * w) →
    ∃ t, exec .convMatrixN s = .next t ∧ exec .convMatrixN { s with kw := kw' } = .next { t with kw := kw' }

/-- 42_convolution.md R174: a coordinate is clamped to the nearest valid one, so no neighbour read leaves the buffer. -/
def Obligations.ClampedCoordinateIsTheNearest : Prop :=
  ∀ (n : Nat) (i : Int), 1 ≤ n →
    clampCoord n i < n ∧ ((clampCoord n i : Nat) : Int) = max 0 (min i ((n : Int) - 1)) ∧
    (0 ≤ i → i < n → ((clampCoord n i : Nat) : Int) = i) ∧ (i < 0 → clampCoord n i = 0) ∧
    ((n : Int) ≤ i → clampCoord n i = n - 1)

/-- 42_convolution.md R175: the convolution sum is the correlation over all rows and columns of the kernel with clamped
addressing. -/
def Obligations.ConvolutionSumIsTheClampedCorrelation : Prop :=
  ∀ s k ws x y c, 1 ≤ bufW s → 1 ≤ bufH s →
    convSum s k ws x y c =
      ∑ row ∈ Finset.range k, ∑ col ∈ Finset.range k,
        (inCh s (max 0 (min ((x : Int) + col - (k / 2 : Nat)) ((bufW s : Int) - 1))).toNat
          (max 0 (min ((y : Int) + row - (k / 2 : Nat)) ((bufH s : Int) - 1))).toNat c : Rat) * ws.getD (col + row * k) 0

/-- 43_gaussian.md R204: the two exact passes equal one 2-D convolution, amount 1, with the n x n kernel
`w[col + row*n] = g'[row] * g'[col]`. -/
def Obligations.BlurEqualsTwoDimensionalConvolution : Prop :=
  ∀ s n (g : List Rat), n % 2 = 1 → g.length = n → ∀ x y c,
    blurSum s n g x y c
      = convSum s n ((List.range (n * n)).map fun m => g.getD (m / n) 0 * g.getD (m % n) 0) x y c ∧
    gblurLane s (n, g) x y c
      = convLane s (1, n, (List.range (n * n)).map fun m => g.getD (m / n) 0 * g.getD (m % n) 0) x y c

/-- The blur commutes with transposition of a square buffer (43_gaussian.md section 2): lane by lane for any taps, each
colour channel on its own, and in the output of two GBLUR commands, alpha with it. -/
def Obligations.BlurCommutesWithTransposition : Prop :=
  (∀ s s' n (g : List Rat) c, bufW s = bufH s → bufW s' = bufW s → bufH s' = bufH s → c < 3 →
    (∀ x y, x < bufW s → y < bufW s → inCh s' x y c = inCh s y x c) →
    ∀ x y, x < bufW s → y < bufW s → gblurLane s' (n, g) x y c = gblurLane s (n, g) y x c) ∧
  ∀ s s', Ready .gblur s → Ready .gblur s' → bufW s = bufH s → s'.width = s.width → s'.height = s.height →
    s'.params.glen = s.params.glen → s'.gt = s.gt →
    (∀ x y c, x < bufW s → y < bufW s → c < 4 →
      Memory.read s'.inMem (pixelOffset (bufW s) x y c) = Memory.read s.inMem (pixelOffset (bufW s) y x c)) →
    ∃ t t', exec .gblur s = .next t ∧ exec .gblur s' = .next t' ∧
      ∀ x y c, x < bufW s → y < bufW s → c < 4 →
        Memory.read t'.outMem (pixelOffset (bufW s) x y c) = Memory.read t.outMem (pixelOffset (bufW s) y x c)

/-! ### The host's side -/

/-- 44_dispatch.md R223: a CMD write while idle is a command start; while busy it is dropped. BUSY_WR and ACC_ERR are
not changed by a start, and `irq` is low after it. -/
def Obligations.CmdWriteStartsACommand : Prop :=
  ∀ s v, s.rst = false →
    (s.busy = false → busWrite s .b4 0x01C v =
      { s with cmd := v, done := false, err := false, errCode := none, errInfo := 0, busy := true } ∧
      irq (busWrite s .b4 0x01C v) = false) ∧
    (s.busy = true → busWrite s .b4 0x01C v = { s with busyWr := true })

/-- 70_reset_and_hazards.md R290: while BUSY = 1, CTRL and STATUS writes take effect, a supported write to any other
writable location only sets BUSY_WR, and a write to a read-only or reserved offset does nothing. -/
def Obligations.WritesWhileBusyAreDropped : Prop :=
  ∀ s size off v, s.rst = false → s.busy = true → supported size off = true →
    (off = 0x010 → busWrite s size off v = if v.getLsbD 1 then softReset s else { s with irqEn := v.getLsbD 0 }) ∧
    (off = 0x014 → busWrite s size off v = writeStatus v s) ∧
    (off = 0x01C ∨ dataRegister off.toNat = true ∨ 0x100000 ≤ off.toNat →
      busWrite s size off v = { s with busyWr := true }) ∧
    (off.toNat < 0x100000 → off ≠ 0x010 → off ≠ 0x014 → off ≠ 0x01C → dataRegister off.toNat = false →
      busWrite s size off v = s)

/-- 20_memory.md R63: an unsupported write only sets ACC_ERR; an unsupported read returns 0 and sets ACC_ERR. -/
def Obligations.UnsupportedAccessOnlySetsAccErr : Prop :=
  ∀ s size (off : BitVec 22) v, s.rst = false →
    (off.toNat % sizeBytes size ≠ 0 ∨ (sizeBytes size < 4 ∧ off.toNat < 0x100000) ∨ 0x300000 ≤ off.toNat ∨
      (0x100000 ≤ off.toNat ∧ off.toNat < 0x200000 ∧ Config.memBytes ≤ off.toNat - 0x100000) ∨
      (0x200000 ≤ off.toNat ∧ off.toNat < 0x300000 ∧ Config.memBytes ≤ off.toNat - 0x200000)) →
    busWrite s size off v = { s with accErr := true } ∧ busRead s size off = { s with rdata := 0, accErr := true }

/-- Each register offset reads and writes the register that the commands use under its name: the 32-bit registers, the
two halves of each amount and coefficient, and the bytes of KW and GT; the reads hold while a command runs too. What a
host writes to one of these data registers is what it reads back, and every other register reads as before; pixel
memories and flags are untouched (20_memory.md sections 1 and 4, 10_state.md sections 2 and 4). That a KW or GT word
nothing has written also reads as before is the model's reading of unwritten storage (log 5). -/
def Obligations.DataRegistersReadBack : Prop :=
  (∀ s, s.rst = false →
    RegisterAt s 0x020 s.width (fun v => { s with width := v }) ∧
    RegisterAt s 0x024 s.height (fun v => { s with height := v }) ∧
    RegisterAt s 0x028 s.dataLen (fun v => { s with dataLen := v }) ∧
    RegisterAt s 0x02C s.params.ksize (fun v => { s with params := { s.params with ksize := v } }) ∧
    RegisterAt s 0x030 s.params.glen (fun v => { s with params := { s.params with glen := v } }) ∧
    RegisterAt s 0x034 s.params.posterLevels (fun v => { s with params := { s.params with posterLevels := v } }) ∧
    RegisterAt s 0x038 s.params.mosaicSize (fun v => { s with params := { s.params with mosaicSize := v } }) ∧
    RegisterAt s 0x040 s.params.tintHex0 (fun v => { s with params := { s.params with tintHex0 := v } }) ∧
    RegisterAt s 0x044 s.params.tintHex1 (fun v => { s with params := { s.params with tintHex1 := v } }) ∧
    ([.grey, .sepia, .tint, .poster, .mosaic, .box, .edges, .emboss, .sharpen, .matrix] : List Amount).map
      (amountReg s.params) = s.params.amounts.toList ∧
    (∀ i : Fin 10, HalvesAt s (0x080 + 8 * i.val) s.params.amounts[i]
      (fun b => { s with params := { s.params with amounts := s.params.amounts.set i b } })) ∧
    (∀ i : Fin 3, HalvesAt s (0x100 + 8 * i.val) s.params.lumCoef[i]
      (fun b => { s with params := { s.params with lumCoef := s.params.lumCoef.set i b } })) ∧
    (∀ i : Fin 9, HalvesAt s (0x120 + 8 * i.val) s.params.sepCoef[i]
      (fun b => { s with params := { s.params with sepCoef := s.params.sepCoef.set i b } })) ∧
    WeightsAt s 0x400 81 State.kw (fun m => { s with kw := m }) ∧
    WeightsAt s 0x800 255 State.gt (fun m => { s with gt := m })) ∧
  ∀ s off v, s.rst = false → s.busy = false → dataRegister off.toNat = true →
    (busRead (busWrite s .b4 off v) .b4 off).rdata = v ∧
    (∀ off' : BitVec 22, off' ≠ off → off'.toNat < 0x100000 →
      (busRead (busWrite s .b4 off v) .b4 off').rdata = (busRead s .b4 off').rdata) ∧
    busWrite s .b4 off v =
      { s with
        width := (busWrite s .b4 off v).width, height := (busWrite s .b4 off v).height
        dataLen := (busWrite s .b4 off v).dataLen, params := (busWrite s .b4 off v).params
        kw := (busWrite s .b4 off v).kw, gt := (busWrite s .b4 off v).gt }

/-- 20_memory.md R64: a naturally aligned 1-, 2- or 4-byte write in a pixel window stores the bytes of the data
little-endian from its window offset on and changes no other byte; such a read returns the bytes there little-endian,
each written byte as it is stored, higher bits 0. What a byte that nothing has written reads as is left open here. -/
def Obligations.PixelWindowsAreLittleEndian : Prop :=
  ∀ s size (off : BitVec 22) v, s.rst = false → s.busy = false → off.toNat % sizeBytes size = 0 →
    0x100000 ≤ off.toNat → off.toNat < 0x300000 →
    let sp : Space := if off.toNat < 0x200000 then .inMem else .outMem
    let a := off.toNat % 0x100000
    (∃ m, busWrite s size off v = setMemory s sp m ∧
      ∀ b, Memory.read m b =
        if a ≤ b ∧ b < a + sizeBytes size then some (v.extractLsb' (8 * (b - a)) 8)
        else Memory.read (memory s sp) b) ∧
    (∃ r, busRead s size off = { s with rdata := r } ∧
      (∀ k b, k < sizeBytes size → Memory.read (memory s sp) (a + k) = some b → r.extractLsb' (8 * k) 8 = b) ∧
      ∀ j, 8 * sizeBytes size ≤ j → r.getLsbD j = false)

/-- While BUSY = 1 a read of OUT_MEM leaves only a free value in the read data; every other supported read returns the
current value: what the same read returns with no command running, STATUS with its BUSY bit apart, and in a pixel window
the bytes of that memory. No read of either kind changes anything else (20_memory.md sections 3 and 6; the draw counter
is the model's own, log 7, and that a byte nothing has written has one value, `hostByte`, at every read is log 5). -/
def Obligations.ReadsHaveNoSideEffects : Prop :=
  ∀ s size off, s.rst = false → supported size off = true →
    ((s.busy = false ∨ off.toNat < 0x200000) →
      busRead s size off = { s with rdata := (busRead s size off).rdata } ∧
      (busRead (busRead s size off) size off).rdata = (busRead s size off).rdata ∧
      (off ≠ 0x014 → (busRead s size off).rdata = (busRead { s with busy := false } size off).rdata) ∧
      (0x100000 ≤ off.toNat → ∀ k, k < sizeBytes size →
        (busRead s size off).rdata.extractLsb' (8 * k) 8 =
          hostByte s (if off.toNat < 0x200000 then .inMem else .outMem) (off.toNat % 0x100000 + k))) ∧
    (s.busy = true → 0x200000 ≤ off.toNat →
      ∃ r, busRead s size off = { s with rdata := r, draws := s.draws + 1 })

/-- Every register reads its reset value after reset: the map of 20_memory.md R72 but KW and GT. -/
def Obligations.ResetRegisterMap : Prop :=
  let map : List (BitVec 22 × Word) :=
    [(0x000, 0x50424A53), (0x004, 0x00000007), (0x008, 0x0000FF09), (0x00C, 0x00100000), (0x010, 0), (0x014, 0),
      (0x018, 0), (0x01C, 0), (0x020, 0), (0x024, 0), (0x028, 0), (0x02C, 3), (0x030, 1), (0x034, 5), (0x038, 5),
      (0x03C, 0), (0x040, 0x46464623), (0x044, 0x00464646), (0x080, 0), (0x084, 0x3FF00000), (0x088, 0),
      (0x08C, 0x3FF00000), (0x090, 0x33333333), (0x094, 0x3FD33333), (0x098, 0), (0x09C, 0x3FF00000), (0x0A0, 0),
      (0x0A4, 0x3FF00000), (0x0A8, 0), (0x0AC, 0x3FF00000), (0x0B0, 0), (0x0B4, 0x3FF00000), (0x0B8, 0),
      (0x0BC, 0x3FD00000), (0x0C0, 0), (0x0C4, 0x3FD00000), (0x0C8, 0), (0x0CC, 0x3FF00000), (0x100, 0xAE147AE1),
      (0x104, 0x3FCAE147), (0x108, 0xEB851EB8), (0x10C, 0x3FE6B851), (0x110, 0x1EB851EC), (0x114, 0x3FB1EB85),
      (0x120, 0x78D4FDF4), (0x124, 0x3FD926E9), (0x128, 0xE353F7CF), (0x12C, 0x3FE89BA5), (0x130, 0xE978D4FE),
      (0x134, 0x3FC83126), (0x138, 0x189374BC), (0x13C, 0x3FD65604), (0x140, 0x45A1CAC1), (0x144, 0x3FE5F3B6),
      (0x148, 0x24DD2F1B), (0x14C, 0x3FC58106), (0x150, 0xB020C49C), (0x154, 0x3FD16872), (0x158, 0x2B020C4A),
      (0x15C, 0x3FE11687), (0x160, 0xA5E353F8), (0x164, 0x3FC0C49B)]
  map.map (fun p => (busRead State.reset .b4 p.1).rdata) = map.map Prod.snd

/-- STATUS and CTRL read as their fields, reserved bits 0, ERR_CODE with the codes of 60_exceptions.md section 1;
ERR_INFO and CMD read as they are held; a STATUS write clears exactly the W1C bits written 1, ERR with ERR_CODE and
ERR_INFO; a CTRL write with SRST = 0 only sets IRQ_EN to bit 0 (10_state.md section 3). -/
def Obligations.StatusFieldsAndWriteOneToClear : Prop :=
  (∀ s, s.rst = false →
    (busRead s .b4 0x014).rdata = statusWord s ∧ (busRead s .b4 0x010).rdata = ctrlWord s ∧
      (busRead s .b4 0x018).rdata = s.errInfo ∧ (busRead s .b4 0x01C).rdata = s.cmd) ∧
  (∀ s, (statusWord s).getLsbD 0 = s.busy ∧ (statusWord s).getLsbD 1 = s.done ∧ (statusWord s).getLsbD 2 = s.err ∧
    (statusWord s).getLsbD 3 = false ∧
    (s.errCode = none → (statusWord s).extractLsb' 4 4 = 0) ∧
    (s.errCode = some .invalidBuffer → (statusWord s).extractLsb' 4 4 = 1) ∧
    (s.errCode = some .unknownFilter → (statusWord s).extractLsb' 4 4 = 2) ∧
    (s.errCode = some .invalidParameter → (statusWord s).extractLsb' 4 4 = 3) ∧
    (statusWord s).getLsbD 8 = s.busyWr ∧ (statusWord s).getLsbD 9 = s.accErr ∧
    (statusWord s).extractLsb' 10 22 = 0 ∧
    (ctrlWord s).getLsbD 0 = s.irqEn ∧ (ctrlWord s).extractLsb' 1 31 = 0) ∧
  (∀ s v, s.rst = false → v.getLsbD 1 = false → busWrite s .b4 0x010 v = { s with irqEn := v.getLsbD 0 }) ∧
  ∀ s v, s.rst = false →
    busWrite s .b4 0x014 v =
      { s with
        done := s.done && !v.getLsbD 1
        err := s.err && !v.getLsbD 2
        errCode := if v.getLsbD 2 then none else s.errCode
        errInfo := if v.getLsbD 2 then 0 else s.errInfo
        busyWr := s.busyWr && !v.getLsbD 8
        accErr := s.accErr && !v.getLsbD 9 }

/-- 60_exceptions.md R258: `irq` is IRQ_EN and (DONE or ERR) of the current registers; it is high after any completion
with IRQ_EN = 1 and when IRQ_EN is set over an old DONE or ERR; it is low after DONE and ERR are cleared, after a command
start, after IRQ_EN is cleared and after either reset; ACC_ERR and BUSY_WR do not drive it. -/
def Obligations.IrqFollowsTheCompletionFlags : Prop :=
  (∀ s, s.rst = false → irq s = (s.irqEn && (s.done || s.err))) ∧
  (∀ i s t, s.rst = false → s.irqEn = true → exec i s = .next t → irq t = true) ∧
  (∀ s v, s.rst = false → v.getLsbD 1 = false → v.getLsbD 0 = true → (s.done = true ∨ s.err = true) →
    irq (busWrite s .b4 0x010 v) = true) ∧
  (∀ s v, s.rst = false → v.getLsbD 1 = true → v.getLsbD 2 = true → irq (busWrite s .b4 0x014 v) = false) ∧
  (∀ s v, s.rst = false → s.busy = false → irq (busWrite s .b4 0x01C v) = false) ∧
  (∀ s v, s.rst = false → v.getLsbD 0 = false → irq (busWrite s .b4 0x010 v) = false) ∧
  (∀ s v, s.rst = false → v.getLsbD 1 = true → irq (busWrite s .b4 0x010 v) = false) ∧
  (∀ s, irq (driveRst s true) = false ∧ irq (driveRst (driveRst s true) false) = false) ∧
  ∀ s a b, irq { s with accErr := a, busyWr := b } = irq s

/-- 70_reset_and_hazards.md R283: a CTRL write with SRST = 1 returns every register to its reset value, keeps KW, GT and
IN_MEM, and keeps OUT_MEM but for bytes 0 to W*H*4 - 1 when it abandons a running command; `irq` is low. What becomes of
the read data and of the model's own fields is left open here. -/
def Obligations.SoftResetRestoresTheRegisters : Prop :=
  ∀ s v, s.rst = false → v.getLsbD 1 = true →
    ∃ t, busWrite s .b4 0x010 v = t ∧ irq t = false ∧
      t = { State.reset with
        turns := t.turns, rdata := t.rdata, era := t.era, draws := t.draws
        kw := s.kw, gt := s.gt, inMem := s.inMem, outMem := t.outMem } ∧
      (s.busy = false → t.outMem = s.outMem) ∧
      (s.busy = true → ∀ a, bufW s * bufH s * 4 ≤ a → Memory.read t.outMem a = Memory.read s.outMem a)

/-- 70_reset_and_hazards.md R280: while `rst` is high writes are ignored, reads return 0 and `irq` is low; when it falls
every register has its reset value, no command runs and every memory is unwritten. The model's own are: that a read
under `rst` does not set ACC_ERR and that a reset keeps the read data (log 4), the schedule, kept by a reset too (log 1),
the count of hard resets (log 5), the count of draws that a reset keeps (log 7), and when the reset is applied (log 8). -/
def Obligations.HardResetHoldsAndClears : Prop :=
  (∀ s size off v, s.rst = true →
    busWrite s size off v = s ∧ busRead s size off = { s with rdata := 0 } ∧ irq s = false ∧
    ∀ ts, s.turns = .engine :: ts → step s = .next { s with turns := ts }) ∧
  ∀ s, driveRst (driveRst s true) false =
    { State.reset with
      turns := s.turns, rdata := s.rdata, draws := s.draws, era := (driveRst (driveRst s true) false).era } ∧
    (driveRst s true).rst = true ∧ (driveRst s true).busy = false

/-! ### Invariants and whole runs -/

/-- The invariant holds after reset (10_state.md section 7). -/
def Obligations.ResetMeetsTheInvariant : Prop := Invariant State.reset

/-- Every step from every state that meets the invariant gives a state that meets it: canonical memories, exclusive
completion flags, and an error record that agrees with ERR and the command word (10_state.md section 3). -/
def Obligations.StepKeepsTheInvariant : Prop := ∀ s t, Invariant s → step s = .next t → Invariant t

/-- While a command runs no host turn but a reset changes the command, its operands, the memories or BUSY, so the engine
finds what the command started with (20_memory.md section 6, 70_reset_and_hazards.md section 4). -/
def Obligations.RunningCommandKeepsItsOperands : Prop :=
  ∀ s t turn, s.busy = true → turn ≠ .engine → resetsBlock s turn = false → takeTurn turn s = .next t →
    t.busy = true ∧ t.cmd = s.cmd ∧ t.width = s.width ∧ t.height = s.height ∧ t.dataLen = s.dataLen ∧
    t.params = s.params ∧ t.kw = s.kw ∧ t.gt = s.gt ∧ t.inMem = s.inMem ∧ t.outMem = s.outMem

/-- The end state of a command is the same for every number of STATUS polls before the engine's step, but for the read
data of the last poll (70_reset_and_hazards.md section 5; log 1, 2). -/
def Obligations.PollsDoNotChangeTheOutcome : Prop :=
  ∀ n s t, s.busy = true → s.rst = false → s.turns = [] → step s = .next t →
    Host.Core.run core (n + 1) { s with turns := List.replicate n poll }
      = .next { t with rdata := if n = 0 then s.rdata else statusWord s }

/-- Whatever finite schedule of host and engine turns follows, a run to its end plus one step leaves no command running,
unless the model stopped (70_reset_and_hazards.md section 5; log 1, 2). -/
def Obligations.EveryStartedCommandEnds : Prop :=
  ∀ s t, Invariant s → Host.Core.run core (s.turns.length + 1) s = .next t → t.busy = false ∧ t.turns = []

/-! ### Registers and memories the host cannot disturb -/

/-- 10_state.md R28, R29, R30, R31, R36: ID, VERSION, CAP0 and CAP_MEMBYTES read their constants in every state, every
reserved offset reads 0, and a write to any of them, or to ERR_INFO, changes nothing, whether or not a command runs. -/
def Obligations.ReadOnlyAndReservedRegisters : Prop :=
  ∀ s, s.rst = false →
    ((busRead s .b4 0x000).rdata = 0x50424A53 ∧ (busRead s .b4 0x004).rdata = 0x00000007 ∧
      (busRead s .b4 0x008).rdata = 0x0000FF09 ∧ (busRead s .b4 0x00C).rdata = 0x00100000) ∧
    (∀ v, busWrite s .b4 0x000 v = s ∧ busWrite s .b4 0x004 v = s ∧ busWrite s .b4 0x008 v = s ∧
      busWrite s .b4 0x00C v = s ∧ busWrite s .b4 0x018 v = s) ∧
    ∀ off : BitVec 22, off.toNat % 4 = 0 →
      (off.toNat = 0x03C ∨ (0x048 ≤ off.toNat ∧ off.toNat ≤ 0x07C) ∨ (0x0D0 ≤ off.toNat ∧ off.toNat ≤ 0x0FC) ∨
        (0x118 ≤ off.toNat ∧ off.toNat ≤ 0x11C) ∨ (0x168 ≤ off.toNat ∧ off.toNat ≤ 0x3FC) ∨
        (0x400 + 8 * 81 ≤ off.toNat ∧ off.toNat ≤ 0x7FC) ∨ (0x800 + 8 * 255 ≤ off.toNat ∧ off.toNat ≤ 0xFFC) ∨
        (0x1000 ≤ off.toNat ∧ off.toNat ≤ 0xFFFFC)) →
      (busRead s .b4 off).rdata = 0 ∧ ∀ v, busWrite s .b4 off v = s

/-- A soft reset changes no byte the host reads of KW, GT and IN_MEM, written or not, and none of OUT_MEM when no command
runs; the read data and the schedule stay (10_state.md sections 4 and 5). Unwritten bytes that read alike before and
after are log 5's, the read data is log 4's and the schedule log 1's. -/
def Obligations.SoftResetKeepsWhatTheHostReads : Prop :=
  ∀ s v, s.rst = false → v.getLsbD 1 = true →
    (∀ sp a, sp ≠ .outMem ∨ s.busy = false → hostByte (busWrite s .b4 0x010 v) sp a = hostByte s sp a) ∧
    (busWrite s .b4 0x010 v).rdata = s.rdata ∧ (busWrite s .b4 0x010 v).turns = s.turns
end

