-- ==== Sys2Proof/Laws/Checks.lean ====
section
/-! SUPPORT. What the checks of a command answer, against the operand table of Safety.lean (44_dispatch.md R226 to
R228). -/

namespace Sys2Proof.Machine

open Sys2Proof.Safety

/-! ### Sequencing -/

@[simp] theorem except_ok_bind {α β : Type} (a : α) (f : α → Except Stop β) : (Except.ok a >>= f) = f a := rfl

@[simp] theorem except_pure_bind {α β : Type} (a : α) (f : α → Except Stop β) :
    ((pure a : Except Stop α) >>= f) = f a := rfl

@[simp] theorem except_error_bind {α β : Type} (e : Stop) (f : α → Except Stop β) :
    ((Except.error e : Except Stop α) >>= f) = .error e := rfl

/-! ### The first failing check -/

@[simp] theorem firstFailing_nil : firstFailing [] = none := rfl

@[simp] theorem firstFailing_cons (c : Nat × Bool) (cs : List (Nat × Bool)) :
    firstFailing (c :: cs) = if c.2 then firstFailing cs else some c.1 := by
  obtain ⟨o, b⟩ := c
  cases b <;> simp [firstFailing]

theorem firstFailing_eq_none (cs : List (Nat × Bool)) : firstFailing cs = none ↔ ∀ c ∈ cs, c.2 = true := by
  simp [firstFailing]

/-- The first failing check of a table of entries `i .. i + n - 1`: the lowest entry that fails. -/
theorem firstFailing_range'_some {f : Nat → Nat} {p : Nat → Bool} (n : Nat) : ∀ {i off : Nat},
    firstFailing ((List.range' i n).map fun j => (f j, p j)) = some off →
    ∃ j, i ≤ j ∧ j < i + n ∧ off = f j ∧ p j = false ∧ ∀ k, i ≤ k → k < j → p k = true := by
  induction n with
  | zero => intro i off h; simp at h
  | succ n ih =>
    intro i off h
    simp only [List.range'_succ, List.map_cons, firstFailing_cons] at h
    split_ifs at h with hp
    · obtain ⟨j, h1, h2, h3, h4, h5⟩ := ih h
      refine ⟨j, by omega, by omega, h3, h4, fun k hk hkj => ?_⟩
      by_cases hki : k = i
      · subst hki; exact hp
      · exact h5 k (by omega) hkj
    · simp only [Option.some.injEq] at h
      exact ⟨i, le_rfl, by omega, h.symm, by simpa using hp, fun k _ _ => by omega⟩

theorem firstFailing_range_some {f : Nat → Nat} {p : Nat → Bool} {n off : Nat}
    (h : firstFailing ((List.range n).map fun j => (f j, p j)) = some off) :
    ∃ j, j < n ∧ off = f j ∧ p j = false ∧ ∀ k, k < j → p k = true := by
  rw [List.range_eq_range'] at h
  obtain ⟨j, _, h2, h3, h4, h5⟩ := firstFailing_range'_some n h
  exact ⟨j, by omega, h3, h4, fun k hk => h5 k (Nat.zero_le k) hk⟩

/-! ### Single checks -/

@[simp] theorem checkParam_true (off : Nat) : checkParam off true = .ok () := rfl

@[simp] theorem checkParam_false (off : Nat) :
    checkParam off false = .error (.raise .invalidParameter (BitVec.ofNat 32 off)) := rfl

/-- An amount operand: its value if finite, else InvalidParameter at its offset. -/
theorem amountOperand_eq (s : State) (a : Amount) :
    amountOperand s a = if f64Finite (amountReg s.params a) then .ok (f64val (amountReg s.params a))
      else .error (.raise .invalidParameter (BitVec.ofNat 32 (amountOffset a))) := by
  rw [amountOperand, checkFinite]
  cases f64Finite (amountReg s.params a) <;> rfl

/-- The operand checks of consecutive 64-bit registers from `base` on. -/
def checksFrom : Nat → List F64 → List (Nat × Bool)
  | _, [] => []
  | base, b :: bs => (base, f64Finite b) :: checksFrom (base + 8) bs

/-- Consecutive registers: their values if all finite, else InvalidParameter at the first that is not. -/
theorem finiteValues_eq (bs : List F64) : ∀ base, finiteValues base bs =
    match firstFailing (checksFrom base bs) with
    | none => .ok (bs.map f64val)
    | some off => .error (.raise .invalidParameter (BitVec.ofNat 32 off)) := by
  induction bs with
  | nil => intro base; rfl
  | cons b bs ih =>
    intro base
    rw [finiteValues, checkFinite, checksFrom, firstFailing_cons, ih (base + 8)]
    cases f64Finite b
    · rfl
    · cases firstFailing (checksFrom (base + 8) bs) <;> rfl

/-- Check 2 passes exactly when the buffer fits. -/
theorem checkBuffer_ok (s : State) : checkBuffer s = .ok () ↔ BufferFits s := by
  rw [checkBuffer, BufferFits, bufBytes]
  split_ifs with h1 h2
  · simp [h1]
  · simp only [false_iff, not_and]; omega
  · simp only [true_iff]; omega

/-- The source check passes exactly when every source byte is written. -/
theorem checkInput_ok (s : State) : checkInput s = .ok () ↔ InputWritten s := by
  rw [checkInput, InputWritten]
  split
  · next a ha =>
    have h1 := List.find?_some ha
    have h2 := List.mem_of_find?_eq_some ha
    simp only [reduceCtorEq, false_iff, not_forall]
    refine ⟨a, by simpa using h2, ?_⟩
    simpa using h1
  · next h =>
    simp only [List.find?_eq_none, List.mem_range] at h
    simp only [true_iff]
    intro a ha
    have := h a ha
    revert this
    cases Memory.read s.inMem a <;> simp

/-- The source check stops at the lowest unwritten byte. -/
theorem checkInput_unwritten {s : State} {a : Nat} (ha : a < bufBytes s) (hu : Memory.read s.inMem a = none)
    (hlow : ∀ b, b < a → (Memory.read s.inMem b).isSome = true) : checkInput s = .error (.unwritten .inMem a) := by
  have hf : (List.range (bufBytes s)).find? (fun b => (Memory.read s.inMem b).isNone) = some a := by
    rw [List.find?_range_eq_some]
    refine ⟨by simp [hu], by simpa using ha, fun b hb => ?_⟩
    have := hlow b hb
    revert this
    cases Memory.read s.inMem b <;> simp
  rw [checkInput, hf]

/-! ### Weight entries -/

theorem weightEntry_written {m : Memory} {j : Nat} (sp : Space) (h : entryWritten m j = true) :
    weightEntry m sp j = .ok (entryPattern m j) := by
  obtain ⟨v, hv⟩ := Option.isSome_iff_exists.1 h
  simp [weightEntry, entryPattern, hv]

theorem weightEntry_unwritten {m : Memory} {j : Nat} (sp : Space) (h : entryWritten m j = false) :
    weightEntry m sp j = .error (.unwritten sp (8 * j)) := by
  have hv : loadWritten m (8 * j) 8 = none := by simpa [entryWritten] using h
  simp [weightEntry, hv]

theorem entryFinite_iff (m : Memory) (j : Nat) :
    entryFinite m j = true ↔ entryWritten m j = true ∧ f64Finite (entryPattern m j) = true := by
  simp [entryFinite]

theorem weightValues_step {m : Memory} {i n : Nat} (sp : Space) (base : Nat) (h : entryFinite m i = true) :
    weightValues m sp base i (n + 1)
      = (weightValues m sp base (i + 1) n >>= fun vs => .ok (f64val (entryPattern m i) :: vs)) := by
  obtain ⟨hw, hf⟩ := (entryFinite_iff m i).1 h
  rw [weightValues, weightEntry_written sp hw, except_ok_bind, checkFinite, hf]
  rfl

/-- All entries finite: their values. -/
theorem weightValues_ok {m : Memory} (sp : Space) (base : Nat) (n : Nat) : ∀ {i : Nat},
    (∀ j, i ≤ j → j < i + n → entryFinite m j = true) →
    weightValues m sp base i n = .ok ((List.range' i n).map fun j => f64val (entryPattern m j)) := by
  induction n with
  | zero => intros; rfl
  | succ n ih =>
    intro i h
    rw [weightValues_step sp base (h i le_rfl (by omega)), ih fun j h1 h2 => h j (by omega) (by omega)]
    rfl

/-- The lowest entry that is not finite and written decides: non-finite is InvalidParameter at its offset, unwritten
stops the model. -/
theorem weightValues_error {m : Memory} (sp : Space) (base : Nat) (n : Nat) : ∀ {i j : Nat}, i ≤ j → j < i + n →
    (∀ k, i ≤ k → k < j → entryFinite m k = true) → entryFinite m j = false →
    weightValues m sp base i n =
      if entryWritten m j then .error (.raise .invalidParameter (BitVec.ofNat 32 (base + 8 * j)))
      else .error (.unwritten sp (8 * j)) := by
  induction n with
  | zero => intros; omega
  | succ n ih =>
    intro i j hij hj hlow hbad
    by_cases h : j = i
    · subst h
      rw [weightValues]
      cases hw : entryWritten m j
      · rw [weightEntry_unwritten sp hw]; rfl
      · rw [weightEntry_written sp hw, except_ok_bind, checkFinite]
        have hf : f64Finite (entryPattern m j) = false := by simpa [entryFinite, hw] using hbad
        rw [hf]; rfl
    · rw [weightValues_step sp base (hlow i le_rfl (by omega)),
        ih (by omega) (by omega) (fun k h1 h2 => hlow k (by omega) h2) hbad]
      split_ifs <;> rfl

end Sys2Proof.Machine
end

