-- ==== Sys2Proof/Laws/Memory.lean ====
section
/-! SUPPORT. What the memory operations do: reading back, and keeping the canonical form. -/

namespace Sys2Proof.Machine

/-! ### Reading back -/

@[simp] theorem read_nil (a : Nat) : Memory.read [] a = none := rfl

theorem read_cons (k : Nat) (b : Byte) (m : Memory) (a : Nat) :
    Memory.read ((k, b) :: m) a = if a = k then some b else Memory.read m a := rfl

/-- A byte read after a byte write: the written value at its address, the old one elsewhere. -/
theorem read_write (m : Memory) (a x : Nat) (b : Byte) :
    Memory.read (Memory.write m a b) x = if x = a then some b else Memory.read m x := by
  induction m with
  | nil => simp [Memory.write, read_cons]
  | cons c m ih =>
    obtain ⟨k, c⟩ := c
    simp only [Memory.write]
    split_ifs <;> simp only [read_cons, ih] <;> split_ifs <;> simp_all

theorem read_append (m m' : Memory) (a : Nat) :
    Memory.read (m ++ m') a = (Memory.read m a).or (Memory.read m' a) := by
  induction m with
  | nil => simp
  | cons c m ih =>
    obtain ⟨k, c⟩ := c
    simp only [List.cons_append, read_cons, ih]
    split_ifs <;> simp

theorem read_map_of_mem (l : List Nat) (f : Nat → Byte) (a : Nat) :
    Memory.read (l.map fun x => (x, f x)) a = if a ∈ l then some (f a) else none := by
  induction l with
  | nil => simp
  | cons x l ih =>
    simp only [List.map_cons, read_cons, ih, List.mem_cons]
    split_ifs <;> simp_all

theorem read_filter_ge (m : Memory) (n a : Nat) :
    Memory.read (m.filter fun c => n ≤ c.1) a = if n ≤ a then Memory.read m a else none := by
  induction m with
  | nil => simp
  | cons c m ih =>
    obtain ⟨k, c⟩ := c
    simp only [List.filter_cons]
    split_ifs <;> simp_all [read_cons] <;> (intro h; omega)

/-- Reading an overwritten memory: the new byte below `n`, the old one from `n` on. -/
theorem read_overwrite (m : Memory) (n : Nat) (f : Nat → Byte) (a : Nat) :
    Memory.read (Memory.overwrite m n f) a = if a < n then some (f a) else Memory.read m a := by
  rw [Memory.overwrite, read_append, read_map_of_mem, read_filter_ge]
  simp only [List.mem_range]
  split_ifs <;> first | omega | simp

/-- Reading after a little-endian store: byte `x - a` of the value inside it, the old byte outside. -/
theorem read_storeLE (n : Nat) : ∀ (m : Memory) (a v x : Nat),
    Memory.read (storeLE m a n v) x
      = if a ≤ x ∧ x < a + n then some (BitVec.ofNat 8 (v / 256 ^ (x - a))) else Memory.read m x := by
  induction n with
  | zero => intro m a v x; rw [if_neg (by omega)]; rfl
  | succ n ih =>
    intro m a v x
    rw [storeLE, ih, read_write]
    by_cases hx : x = a
    · subst hx
      rw [if_neg (by omega), if_pos rfl, if_pos (by omega)]
      simp
    · rw [if_neg hx]
      by_cases h : a + 1 ≤ x ∧ x < a + 1 + n
      · rw [if_pos h, if_pos (by omega), Nat.div_div_eq_div_mul, ← pow_succ']
        rw [show x - (a + 1) + 1 = x - a by omega]
      · rw [if_neg h, if_neg (by omega)]

/-- A little-endian load depends on the loaded bytes only. -/
theorem loadLE_congr (n : Nat) : ∀ (f g : Nat → Byte) (a : Nat),
    (∀ x, a ≤ x → x < a + n → f x = g x) → loadLE f a n = loadLE g a n := by
  induction n with
  | zero => intros; rfl
  | succ n ih =>
    intro f g a h
    rw [loadLE, loadLE, h a (by omega) (by omega), ih f g (a + 1) fun x h1 h2 => h x (by omega) (by omega)]

theorem loadLE_lt (n : Nat) : ∀ (f : Nat → Byte) (a : Nat), loadLE f a n < 256 ^ n := by
  induction n with
  | zero => intros; simp [loadLE]
  | succ n ih =>
    intro f a
    have h1 := (f a).isLt
    have h2 := ih f (a + 1)
    rw [loadLE, pow_succ]
    omega

/-- Loading back the bytes of a value gives the value, cut to its `n` low bytes. -/
theorem loadLE_of_bytes (n : Nat) : ∀ (f : Nat → Byte) (a v : Nat),
    (∀ x, a ≤ x → x < a + n → f x = BitVec.ofNat 8 (v / 256 ^ (x - a))) → loadLE f a n = v % 256 ^ n := by
  induction n with
  | zero => intros; simp [loadLE, Nat.mod_one]
  | succ n ih =>
    intro f a v h
    have hb : f a = BitVec.ofNat 8 v := by simpa using h a le_rfl (by omega)
    have hr : loadLE f (a + 1) n = v / 256 % 256 ^ n := by
      refine ih f (a + 1) (v / 256) fun x h1 h2 => ?_
      rw [h x (by omega) (by omega), Nat.div_div_eq_div_mul, ← pow_succ', show x - (a + 1) + 1 = x - a by omega]
    rw [loadLE, hb, hr, pow_succ', Nat.mod_mul, BitVec.toNat_ofNat]

/-! ### The canonical form -/

theorem wfFrom_mono {size lo lo' : Nat} {m : Memory} (h : Memory.wfFrom size lo m = true) (hlo : lo' ≤ lo) :
    Memory.wfFrom size lo' m = true := by
  cases m with
  | nil => rfl
  | cons c m =>
    obtain ⟨k, c⟩ := c
    simp only [Memory.wfFrom, Bool.and_eq_true, decide_eq_true_eq] at h ⊢
    exact ⟨⟨by omega, h.1.2⟩, h.2⟩

theorem wfFrom_write {size : Nat} : ∀ {lo : Nat} {m : Memory} {a : Nat} (b : Byte),
    Memory.wfFrom size lo m = true → lo ≤ a → a < size → Memory.wfFrom size lo (Memory.write m a b) = true := by
  intro lo m
  induction m generalizing lo with
  | nil => intro a b _ hlo ha; simp [Memory.write, Memory.wfFrom, hlo, ha]
  | cons c m ih =>
    obtain ⟨k, c⟩ := c
    intro a b h hlo ha
    simp only [Memory.wfFrom, Bool.and_eq_true, decide_eq_true_eq] at h
    simp only [Memory.write]
    split_ifs with h1 h2
    · simp only [Memory.wfFrom, Bool.and_eq_true, decide_eq_true_eq]
      exact ⟨⟨hlo, ha⟩, ⟨by omega, h.1.2⟩, h.2⟩
    · subst h2
      simp only [Memory.wfFrom, Bool.and_eq_true, decide_eq_true_eq]
      exact ⟨⟨hlo, ha⟩, h.2⟩
    · simp only [Memory.wfFrom, Bool.and_eq_true, decide_eq_true_eq]
      exact ⟨h.1, ih b h.2 (by omega) ha⟩

/-- A byte write inside the memory keeps the canonical form. -/
theorem wf_write {size : Nat} {m : Memory} {a : Nat} (b : Byte) (h : Memory.wf size m = true) (ha : a < size) :
    Memory.wf size (Memory.write m a b) = true :=
  wfFrom_write b h (Nat.zero_le a) ha

/-- A little-endian store inside the memory keeps the canonical form. -/
theorem wf_storeLE {size : Nat} (n : Nat) : ∀ {m : Memory} {a v : Nat},
    Memory.wf size m = true → a + n ≤ size → Memory.wf size (storeLE m a n v) = true := by
  induction n with
  | zero => intro m a v h _; exact h
  | succ n ih => intro m a v h ha; exact ih (wf_write _ h (by omega)) (by omega)

theorem wfFrom_filter {size n : Nat} : ∀ {lo : Nat} {m : Memory}, Memory.wfFrom size lo m = true →
    Memory.wfFrom size (max lo n) (m.filter fun c => n ≤ c.1) = true := by
  intro lo m
  induction m generalizing lo with
  | nil => intro _; rfl
  | cons c m ih =>
    obtain ⟨k, c⟩ := c
    intro h
    simp only [Memory.wfFrom, Bool.and_eq_true, decide_eq_true_eq] at h
    rw [List.filter_cons]
    split_ifs with hk
    · have hk' : n ≤ k := by simpa using hk
      simp only [Memory.wfFrom, Bool.and_eq_true, decide_eq_true_eq]
      exact ⟨⟨by omega, h.1.2⟩, wfFrom_mono (ih h.2) (by omega)⟩
    · exact wfFrom_mono (ih h.2) (by omega)

theorem wfFrom_range_append {size n : Nat} (f : Nat → Byte) (m : Memory) (hm : Memory.wfFrom size n m = true)
    (hn : n ≤ size) : ∀ lo, lo ≤ n →
    Memory.wfFrom size lo ((List.range' lo (n - lo)).map (fun a => (a, f a)) ++ m) = true := by
  intro lo hlo
  induction h : n - lo generalizing lo with
  | zero => simpa [List.range'] using wfFrom_mono hm hlo
  | succ d ih =>
    have hd : n - (lo + 1) = d := by omega
    simp only [List.range'_succ, List.map_cons, List.cons_append, Memory.wfFrom, Bool.and_eq_true, decide_eq_true_eq]
    exact ⟨⟨le_rfl, by omega⟩, ih (lo + 1) (by omega) hd⟩

/-- Overwriting the first `n` bytes of a memory keeps the canonical form. -/
theorem wf_overwrite {size n : Nat} {m : Memory} (f : Nat → Byte) (h : Memory.wf size m = true) (hn : n ≤ size) :
    Memory.wf size (Memory.overwrite m n f) = true := by
  have hm : Memory.wfFrom size n (m.filter fun c => n ≤ c.1) = true := by
    simpa using wfFrom_filter (n := n) h
  simpa [Memory.wf, Memory.overwrite, List.range_eq_range'] using
    wfFrom_range_append f _ hm hn 0 (Nat.zero_le n)

theorem wfFrom_read_below {size : Nat} : ∀ {lo : Nat} {m : Memory} {a : Nat}, Memory.wfFrom size lo m = true →
    a < lo → Memory.read m a = none := by
  intro lo m
  induction m generalizing lo with
  | nil => intros; rfl
  | cons c m ih =>
    obtain ⟨k, c⟩ := c
    intro a h ha
    simp only [Memory.wfFrom, Bool.and_eq_true, decide_eq_true_eq] at h
    rw [read_cons, if_neg (by omega), ih h.2 (by omega)]

/-- The address of a listed byte lies inside the memory. -/
theorem wf_read_lt {size : Nat} : ∀ {lo : Nat} {m : Memory} {a : Nat} {b : Byte}, Memory.wfFrom size lo m = true →
    Memory.read m a = some b → a < size := by
  intro lo m
  induction m generalizing lo with
  | nil => intro a b _ h; simp at h
  | cons c m ih =>
    obtain ⟨k, c⟩ := c
    intro a b h hr
    simp only [Memory.wfFrom, Bool.and_eq_true, decide_eq_true_eq] at h
    rw [read_cons] at hr
    split_ifs at hr with hk
    · omega
    · exact ih h.2 hr

theorem wfFrom_ext {size : Nat} : ∀ {lo : Nat} {m m' : Memory}, Memory.wfFrom size lo m = true →
    Memory.wfFrom size lo m' = true → (∀ a, Memory.read m a = Memory.read m' a) → m = m' := by
  intro lo m
  induction m generalizing lo with
  | nil =>
    intro m' _ _ h
    cases m' with
    | nil => rfl
    | cons c m' =>
      obtain ⟨k, c⟩ := c
      simpa [read_cons] using h k
  | cons c m ih =>
    obtain ⟨k, c⟩ := c
    intro m' hm hm' h
    cases m' with
    | nil => simpa [read_cons] using h k
    | cons c' m' =>
      obtain ⟨k', c'⟩ := c'
      simp only [Memory.wfFrom, Bool.and_eq_true, decide_eq_true_eq] at hm hm'
      have hkk : k = k' := by
        rcases Nat.lt_trichotomy k k' with hlt | heq | hgt
        · have := h k
          rw [read_cons, read_cons, if_pos rfl, if_neg (by omega), wfFrom_read_below hm'.2 (by omega)] at this
          cases this
        · exact heq
        · have := h k'
          rw [read_cons, read_cons, if_pos rfl, if_neg (by omega), wfFrom_read_below hm.2 (by omega)] at this
          cases this
      subst hkk
      have hc : c = c' := by simpa [read_cons] using h k
      subst hc
      rw [ih hm.2 hm'.2 fun a => ?_]
      by_cases ha : a = k
      · subst ha
        rw [wfFrom_read_below hm.2 (by omega), wfFrom_read_below hm'.2 (by omega)]
      · simpa [read_cons, ha] using h a

/-- Equal memories are equal data: two canonical memories that read alike everywhere are the same list. -/
theorem wf_ext {size : Nat} {m m' : Memory} (hm : Memory.wf size m = true) (hm' : Memory.wf size m' = true)
    (h : ∀ a, Memory.read m a = Memory.read m' a) : m = m' :=
  wfFrom_ext hm hm' h

/-! ### Written entries -/

/-- Where every byte of a load is listed, it is the load of those bytes. -/
theorem loadWritten_eq_loadLE (n : Nat) : ∀ (m : Memory) (a v : Nat), loadWritten m a n = some v →
    loadLE (fun x => (Memory.read m x).getD 0) a n = v := by
  induction n with
  | zero => intro m a v h; simpa [loadWritten, loadLE] using h
  | succ n ih =>
    intro m a v h
    rw [loadWritten] at h
    split at h
    · next b r hb hr =>
      rw [loadLE, ih m (a + 1) r hr, hb]
      simpa using h
    · cases h

/-- A load is written exactly when each of its bytes is. -/
theorem loadWritten_isSome (n : Nat) : ∀ (m : Memory) (a : Nat),
    (loadWritten m a n).isSome = true ↔ ∀ x, a ≤ x → x < a + n → (Memory.read m x).isSome = true := by
  induction n with
  | zero => intro m a; simp [loadWritten]; intros; omega
  | succ n ih =>
    intro m a
    have key : (loadWritten m a (n + 1)).isSome = ((Memory.read m a).isSome && (loadWritten m (a + 1) n).isSome) := by
      rw [loadWritten]
      cases Memory.read m a <;> cases loadWritten m (a + 1) n <;> rfl
    rw [key, Bool.and_eq_true, ih m (a + 1)]
    constructor
    · rintro ⟨h0, h1⟩ x hx hx'
      by_cases hxa : x = a
      · subst hxa; exact h0
      · exact h1 x (by omega) (by omega)
    · intro h
      exact ⟨h a le_rfl (by omega), fun x hx hx' => h x (by omega) (by omega)⟩

end Sys2Proof.Machine
end

