-- ==== Sys2Proof/Laws/State.lean ====
section
/-! SUPPORT. One lemma per field per shared update of the state, so that no proof unfolds a record update. -/

namespace Sys2Proof.Machine

section startCommandFields

variable (w : Word) (s : State)

@[simp] theorem startCommand_turns : (startCommand w s).turns = s.turns := rfl
@[simp] theorem startCommand_rst : (startCommand w s).rst = s.rst := rfl
@[simp] theorem startCommand_rdata : (startCommand w s).rdata = s.rdata := rfl
@[simp] theorem startCommand_irqEn : (startCommand w s).irqEn = s.irqEn := rfl
@[simp] theorem startCommand_busy : (startCommand w s).busy = true := rfl
@[simp] theorem startCommand_done : (startCommand w s).done = false := rfl
@[simp] theorem startCommand_err : (startCommand w s).err = false := rfl
@[simp] theorem startCommand_errCode : (startCommand w s).errCode = none := rfl
@[simp] theorem startCommand_busyWr : (startCommand w s).busyWr = s.busyWr := rfl
@[simp] theorem startCommand_accErr : (startCommand w s).accErr = s.accErr := rfl
@[simp] theorem startCommand_errInfo : (startCommand w s).errInfo = 0 := rfl
@[simp] theorem startCommand_cmd : (startCommand w s).cmd = w := rfl
@[simp] theorem startCommand_width : (startCommand w s).width = s.width := rfl
@[simp] theorem startCommand_height : (startCommand w s).height = s.height := rfl
@[simp] theorem startCommand_dataLen : (startCommand w s).dataLen = s.dataLen := rfl
@[simp] theorem startCommand_params : (startCommand w s).params = s.params := rfl
@[simp] theorem startCommand_kw : (startCommand w s).kw = s.kw := rfl
@[simp] theorem startCommand_gt : (startCommand w s).gt = s.gt := rfl
@[simp] theorem startCommand_inMem : (startCommand w s).inMem = s.inMem := rfl
@[simp] theorem startCommand_outMem : (startCommand w s).outMem = s.outMem := rfl
@[simp] theorem startCommand_era : (startCommand w s).era = s.era := rfl
@[simp] theorem startCommand_draws : (startCommand w s).draws = s.draws := rfl

end startCommandFields

section raiseErrorFields

variable (k : ErrKind) (info : Word) (s : State)

@[simp] theorem raiseError_turns : (raiseError k info s).turns = s.turns := rfl
@[simp] theorem raiseError_rst : (raiseError k info s).rst = s.rst := rfl
@[simp] theorem raiseError_rdata : (raiseError k info s).rdata = s.rdata := rfl
@[simp] theorem raiseError_irqEn : (raiseError k info s).irqEn = s.irqEn := rfl
@[simp] theorem raiseError_busy : (raiseError k info s).busy = false := rfl
@[simp] theorem raiseError_done : (raiseError k info s).done = s.done := rfl
@[simp] theorem raiseError_err : (raiseError k info s).err = true := rfl
@[simp] theorem raiseError_errCode : (raiseError k info s).errCode = some k := rfl
@[simp] theorem raiseError_busyWr : (raiseError k info s).busyWr = s.busyWr := rfl
@[simp] theorem raiseError_accErr : (raiseError k info s).accErr = s.accErr := rfl
@[simp] theorem raiseError_errInfo : (raiseError k info s).errInfo = info := rfl
@[simp] theorem raiseError_cmd : (raiseError k info s).cmd = s.cmd := rfl
@[simp] theorem raiseError_width : (raiseError k info s).width = s.width := rfl
@[simp] theorem raiseError_height : (raiseError k info s).height = s.height := rfl
@[simp] theorem raiseError_dataLen : (raiseError k info s).dataLen = s.dataLen := rfl
@[simp] theorem raiseError_params : (raiseError k info s).params = s.params := rfl
@[simp] theorem raiseError_kw : (raiseError k info s).kw = s.kw := rfl
@[simp] theorem raiseError_gt : (raiseError k info s).gt = s.gt := rfl
@[simp] theorem raiseError_inMem : (raiseError k info s).inMem = s.inMem := rfl
@[simp] theorem raiseError_outMem : (raiseError k info s).outMem = s.outMem := rfl
@[simp] theorem raiseError_era : (raiseError k info s).era = s.era := rfl
@[simp] theorem raiseError_draws : (raiseError k info s).draws = s.draws := rfl

end raiseErrorFields

section clearErrorFields

variable (s : State)

@[simp] theorem clearError_turns : (clearError s).turns = s.turns := rfl
@[simp] theorem clearError_rst : (clearError s).rst = s.rst := rfl
@[simp] theorem clearError_rdata : (clearError s).rdata = s.rdata := rfl
@[simp] theorem clearError_irqEn : (clearError s).irqEn = s.irqEn := rfl
@[simp] theorem clearError_busy : (clearError s).busy = s.busy := rfl
@[simp] theorem clearError_done : (clearError s).done = s.done := rfl
@[simp] theorem clearError_err : (clearError s).err = false := rfl
@[simp] theorem clearError_errCode : (clearError s).errCode = none := rfl
@[simp] theorem clearError_busyWr : (clearError s).busyWr = s.busyWr := rfl
@[simp] theorem clearError_accErr : (clearError s).accErr = s.accErr := rfl
@[simp] theorem clearError_errInfo : (clearError s).errInfo = 0 := rfl
@[simp] theorem clearError_cmd : (clearError s).cmd = s.cmd := rfl
@[simp] theorem clearError_width : (clearError s).width = s.width := rfl
@[simp] theorem clearError_height : (clearError s).height = s.height := rfl
@[simp] theorem clearError_dataLen : (clearError s).dataLen = s.dataLen := rfl
@[simp] theorem clearError_params : (clearError s).params = s.params := rfl
@[simp] theorem clearError_kw : (clearError s).kw = s.kw := rfl
@[simp] theorem clearError_gt : (clearError s).gt = s.gt := rfl
@[simp] theorem clearError_inMem : (clearError s).inMem = s.inMem := rfl
@[simp] theorem clearError_outMem : (clearError s).outMem = s.outMem := rfl
@[simp] theorem clearError_era : (clearError s).era = s.era := rfl
@[simp] theorem clearError_draws : (clearError s).draws = s.draws := rfl

end clearErrorFields

section completeCommandFields

variable (s : State)

@[simp] theorem completeCommand_turns : (completeCommand s).turns = s.turns := rfl
@[simp] theorem completeCommand_rst : (completeCommand s).rst = s.rst := rfl
@[simp] theorem completeCommand_rdata : (completeCommand s).rdata = s.rdata := rfl
@[simp] theorem completeCommand_irqEn : (completeCommand s).irqEn = s.irqEn := rfl
@[simp] theorem completeCommand_busy : (completeCommand s).busy = false := rfl
@[simp] theorem completeCommand_done : (completeCommand s).done = true := rfl
@[simp] theorem completeCommand_err : (completeCommand s).err = s.err := rfl
@[simp] theorem completeCommand_errCode : (completeCommand s).errCode = s.errCode := rfl
@[simp] theorem completeCommand_busyWr : (completeCommand s).busyWr = s.busyWr := rfl
@[simp] theorem completeCommand_accErr : (completeCommand s).accErr = s.accErr := rfl
@[simp] theorem completeCommand_errInfo : (completeCommand s).errInfo = s.errInfo := rfl
@[simp] theorem completeCommand_cmd : (completeCommand s).cmd = s.cmd := rfl
@[simp] theorem completeCommand_width : (completeCommand s).width = s.width := rfl
@[simp] theorem completeCommand_height : (completeCommand s).height = s.height := rfl
@[simp] theorem completeCommand_dataLen : (completeCommand s).dataLen = s.dataLen := rfl
@[simp] theorem completeCommand_params : (completeCommand s).params = s.params := rfl
@[simp] theorem completeCommand_kw : (completeCommand s).kw = s.kw := rfl
@[simp] theorem completeCommand_gt : (completeCommand s).gt = s.gt := rfl
@[simp] theorem completeCommand_inMem : (completeCommand s).inMem = s.inMem := rfl
@[simp] theorem completeCommand_outMem : (completeCommand s).outMem = s.outMem := rfl
@[simp] theorem completeCommand_era : (completeCommand s).era = s.era := rfl
@[simp] theorem completeCommand_draws : (completeCommand s).draws = s.draws := rfl

end completeCommandFields

section writeOutputFields

variable (s : State) (lane : Nat → Nat → Nat → Nat)

@[simp] theorem writeOutput_turns : (writeOutput s lane).turns = s.turns := rfl
@[simp] theorem writeOutput_rst : (writeOutput s lane).rst = s.rst := rfl
@[simp] theorem writeOutput_rdata : (writeOutput s lane).rdata = s.rdata := rfl
@[simp] theorem writeOutput_irqEn : (writeOutput s lane).irqEn = s.irqEn := rfl
@[simp] theorem writeOutput_busy : (writeOutput s lane).busy = s.busy := rfl
@[simp] theorem writeOutput_done : (writeOutput s lane).done = s.done := rfl
@[simp] theorem writeOutput_err : (writeOutput s lane).err = s.err := rfl
@[simp] theorem writeOutput_errCode : (writeOutput s lane).errCode = s.errCode := rfl
@[simp] theorem writeOutput_busyWr : (writeOutput s lane).busyWr = s.busyWr := rfl
@[simp] theorem writeOutput_accErr : (writeOutput s lane).accErr = s.accErr := rfl
@[simp] theorem writeOutput_errInfo : (writeOutput s lane).errInfo = s.errInfo := rfl
@[simp] theorem writeOutput_cmd : (writeOutput s lane).cmd = s.cmd := rfl
@[simp] theorem writeOutput_width : (writeOutput s lane).width = s.width := rfl
@[simp] theorem writeOutput_height : (writeOutput s lane).height = s.height := rfl
@[simp] theorem writeOutput_dataLen : (writeOutput s lane).dataLen = s.dataLen := rfl
@[simp] theorem writeOutput_params : (writeOutput s lane).params = s.params := rfl
@[simp] theorem writeOutput_kw : (writeOutput s lane).kw = s.kw := rfl
@[simp] theorem writeOutput_gt : (writeOutput s lane).gt = s.gt := rfl
@[simp] theorem writeOutput_inMem : (writeOutput s lane).inMem = s.inMem := rfl
@[simp] theorem writeOutput_outMem : (writeOutput s lane).outMem = Memory.overwrite s.outMem (bufBytes s) (outByte s lane) := rfl
@[simp] theorem writeOutput_era : (writeOutput s lane).era = s.era := rfl
@[simp] theorem writeOutput_draws : (writeOutput s lane).draws = s.draws := rfl

end writeOutputFields

section abandonCommandFields

variable (s : State)

@[simp] theorem abandonCommand_turns : (abandonCommand s).turns = s.turns := rfl
@[simp] theorem abandonCommand_rst : (abandonCommand s).rst = s.rst := rfl
@[simp] theorem abandonCommand_rdata : (abandonCommand s).rdata = s.rdata := rfl
@[simp] theorem abandonCommand_irqEn : (abandonCommand s).irqEn = s.irqEn := rfl
@[simp] theorem abandonCommand_busy : (abandonCommand s).busy = s.busy := rfl
@[simp] theorem abandonCommand_done : (abandonCommand s).done = s.done := rfl
@[simp] theorem abandonCommand_err : (abandonCommand s).err = s.err := rfl
@[simp] theorem abandonCommand_errCode : (abandonCommand s).errCode = s.errCode := rfl
@[simp] theorem abandonCommand_busyWr : (abandonCommand s).busyWr = s.busyWr := rfl
@[simp] theorem abandonCommand_accErr : (abandonCommand s).accErr = s.accErr := rfl
@[simp] theorem abandonCommand_errInfo : (abandonCommand s).errInfo = s.errInfo := rfl
@[simp] theorem abandonCommand_cmd : (abandonCommand s).cmd = s.cmd := rfl
@[simp] theorem abandonCommand_width : (abandonCommand s).width = s.width := rfl
@[simp] theorem abandonCommand_height : (abandonCommand s).height = s.height := rfl
@[simp] theorem abandonCommand_dataLen : (abandonCommand s).dataLen = s.dataLen := rfl
@[simp] theorem abandonCommand_params : (abandonCommand s).params = s.params := rfl
@[simp] theorem abandonCommand_kw : (abandonCommand s).kw = s.kw := rfl
@[simp] theorem abandonCommand_gt : (abandonCommand s).gt = s.gt := rfl
@[simp] theorem abandonCommand_inMem : (abandonCommand s).inMem = s.inMem := rfl
@[simp] theorem abandonCommand_outMem : (abandonCommand s).outMem = Memory.overwrite s.outMem (min (bufBytes s) Config.memBytes) (Config.drawnByte s.draws) := rfl
@[simp] theorem abandonCommand_era : (abandonCommand s).era = s.era := rfl
@[simp] theorem abandonCommand_draws : (abandonCommand s).draws = s.draws + 1 := rfl

end abandonCommandFields

section resetRegistersFields

variable (s : State)

@[simp] theorem resetRegisters_turns : (resetRegisters s).turns = s.turns := rfl
@[simp] theorem resetRegisters_rst : (resetRegisters s).rst = s.rst := rfl
@[simp] theorem resetRegisters_rdata : (resetRegisters s).rdata = s.rdata := rfl
@[simp] theorem resetRegisters_irqEn : (resetRegisters s).irqEn = State.reset.irqEn := rfl
@[simp] theorem resetRegisters_busy : (resetRegisters s).busy = State.reset.busy := rfl
@[simp] theorem resetRegisters_done : (resetRegisters s).done = State.reset.done := rfl
@[simp] theorem resetRegisters_err : (resetRegisters s).err = State.reset.err := rfl
@[simp] theorem resetRegisters_errCode : (resetRegisters s).errCode = State.reset.errCode := rfl
@[simp] theorem resetRegisters_busyWr : (resetRegisters s).busyWr = State.reset.busyWr := rfl
@[simp] theorem resetRegisters_accErr : (resetRegisters s).accErr = State.reset.accErr := rfl
@[simp] theorem resetRegisters_errInfo : (resetRegisters s).errInfo = State.reset.errInfo := rfl
@[simp] theorem resetRegisters_cmd : (resetRegisters s).cmd = State.reset.cmd := rfl
@[simp] theorem resetRegisters_width : (resetRegisters s).width = State.reset.width := rfl
@[simp] theorem resetRegisters_height : (resetRegisters s).height = State.reset.height := rfl
@[simp] theorem resetRegisters_dataLen : (resetRegisters s).dataLen = State.reset.dataLen := rfl
@[simp] theorem resetRegisters_params : (resetRegisters s).params = State.reset.params := rfl
@[simp] theorem resetRegisters_kw : (resetRegisters s).kw = s.kw := rfl
@[simp] theorem resetRegisters_gt : (resetRegisters s).gt = s.gt := rfl
@[simp] theorem resetRegisters_inMem : (resetRegisters s).inMem = s.inMem := rfl
@[simp] theorem resetRegisters_outMem : (resetRegisters s).outMem = s.outMem := rfl
@[simp] theorem resetRegisters_era : (resetRegisters s).era = s.era := rfl
@[simp] theorem resetRegisters_draws : (resetRegisters s).draws = s.draws := rfl

end resetRegistersFields

section hardResetFields

variable (level : Bool) (s : State)

@[simp] theorem hardReset_turns : (hardReset level s).turns = s.turns := rfl
@[simp] theorem hardReset_rst : (hardReset level s).rst = level := rfl
@[simp] theorem hardReset_rdata : (hardReset level s).rdata = s.rdata := rfl
@[simp] theorem hardReset_irqEn : (hardReset level s).irqEn = State.reset.irqEn := rfl
@[simp] theorem hardReset_busy : (hardReset level s).busy = State.reset.busy := rfl
@[simp] theorem hardReset_done : (hardReset level s).done = State.reset.done := rfl
@[simp] theorem hardReset_err : (hardReset level s).err = State.reset.err := rfl
@[simp] theorem hardReset_errCode : (hardReset level s).errCode = State.reset.errCode := rfl
@[simp] theorem hardReset_busyWr : (hardReset level s).busyWr = State.reset.busyWr := rfl
@[simp] theorem hardReset_accErr : (hardReset level s).accErr = State.reset.accErr := rfl
@[simp] theorem hardReset_errInfo : (hardReset level s).errInfo = State.reset.errInfo := rfl
@[simp] theorem hardReset_cmd : (hardReset level s).cmd = State.reset.cmd := rfl
@[simp] theorem hardReset_width : (hardReset level s).width = State.reset.width := rfl
@[simp] theorem hardReset_height : (hardReset level s).height = State.reset.height := rfl
@[simp] theorem hardReset_dataLen : (hardReset level s).dataLen = State.reset.dataLen := rfl
@[simp] theorem hardReset_params : (hardReset level s).params = State.reset.params := rfl
@[simp] theorem hardReset_kw : (hardReset level s).kw = State.reset.kw := rfl
@[simp] theorem hardReset_gt : (hardReset level s).gt = State.reset.gt := rfl
@[simp] theorem hardReset_inMem : (hardReset level s).inMem = State.reset.inMem := rfl
@[simp] theorem hardReset_outMem : (hardReset level s).outMem = State.reset.outMem := rfl
@[simp] theorem hardReset_era : (hardReset level s).era = s.era + 1 := rfl
@[simp] theorem hardReset_draws : (hardReset level s).draws = s.draws := rfl

end hardResetFields

end Sys2Proof.Machine
end

