-- ==== Sys2Proof/Laws/Command.lean ====
section
/-! SUPPORT. What a command does, said once: the operands it answers, its two ends, and the output it leaves
(44_dispatch.md R224 to R231). -/

namespace Sys2Proof.Machine

open Sys2Proof.Safety

/-! ### Register vectors as lists -/

theorem vector3_toList (v : Vector F64 3) : v.toList = [v[0], v[1], v[2]] := by
  apply List.ext_getElem
  · simp
  · intro i h1 h2
    have : i < 3 := by simpa using h1
    interval_cases i <;> simp

theorem vector9_toList (v : Vector F64 9) :
    v.toList = [v[0], v[1], v[2], v[3], v[4], v[5], v[6], v[7], v[8]] := by
  apply List.ext_getElem
  · simp
  · intro i h1 h2
    have : i < 9 := by simpa using h1
    interval_cases i <;> simp

/-! ### Operands of each command -/

/-- The operands of a command whose checks read registers only: `v` if every check of the table holds, else
InvalidParameter at the first that fails. -/
def answersTable {α : Type} (cs : List (Nat × Bool)) (v : α) : Except Stop α :=
  match firstFailing cs with
  | none => .ok v
  | some off => .error (.raise .invalidParameter (BitVec.ofNat 32 off))

theorem answersTable_nil {α : Type} (v : α) : answersTable [] v = .ok v := rfl

theorem answersTable_cons {α : Type} (c : Nat × Bool) (cs : List (Nat × Bool)) (v : α) :
    answersTable (c :: cs) v
      = if c.2 then answersTable cs v else .error (.raise .invalidParameter (BitVec.ofNat 32 c.1)) := by
  rw [answersTable, firstFailing_cons]
  cases c.2 <;> rfl

theorem answersTable_ok {α : Type} {cs : List (Nat × Bool)} (v : α) (h : firstFailing cs = none) :
    answersTable cs v = .ok v := by rw [answersTable, h]

theorem answersTable_error {α : Type} {cs : List (Nat × Bool)} {off : Nat} (v : α) (h : firstFailing cs = some off) :
    answersTable cs v = .error (.raise .invalidParameter (BitVec.ofNat 32 off)) := by rw [answersTable, h]

theorem amountOperand_bind {β : Type} (s : State) (a : Amount) (f : Rat → Except Stop β) :
    (amountOperand s a >>= f) = if f64Finite (amountReg s.params a) then f (f64val (amountReg s.params a))
      else .error (.raise .invalidParameter (BitVec.ofNat 32 (amountOffset a))) := by
  rw [amountOperand_eq]
  cases f64Finite (amountReg s.params a) <;> rfl

theorem checkParam_bind {β : Type} (off : Nat) (b : Bool) (f : Unit → Except Stop β) :
    (checkParam off b >>= f)
      = if b then f () else .error (.raise .invalidParameter (BitVec.ofNat 32 off)) := by
  cases b <;> rfl

theorem finiteValues_bind {β : Type} (base : Nat) (bs : List F64) (f : List Rat → β) :
    (finiteValues base bs >>= fun vs => pure (f vs)) = answersTable (checksFrom base bs) (f (bs.map f64val)) := by
  rw [finiteValues_eq, answersTable]
  cases firstFailing (checksFrom base bs) <;> rfl

theorem greyOperands_eq (s : State) : greyOperands s = answersTable (operandChecks s .grey)
    (f64val (amountReg s.params .grey),
      [f64val s.params.lumCoef[0], f64val s.params.lumCoef[1], f64val s.params.lumCoef[2]]) := by
  have table : operandChecks s .grey = amountCheck s 0x080 0 :: checksFrom 0x100
      [s.params.lumCoef[0], s.params.lumCoef[1], s.params.lumCoef[2]] := rfl
  rw [greyOperands, amountOperand_bind, finiteValues_bind, vector3_toList, table, answersTable_cons]
  rfl

theorem sepiaOperands_eq (s : State) : sepiaOperands s = answersTable (operandChecks s .sepia)
    (f64val (amountReg s.params .sepia), (s.params.sepCoef.toList).map f64val) := by
  have table : operandChecks s .sepia = amountCheck s 0x088 1 :: checksFrom 0x120 s.params.sepCoef.toList := by
    rw [vector9_toList]; rfl
  rw [sepiaOperands, amountOperand_bind, finiteValues_bind, table, answersTable_cons]
  rfl

theorem tintOperands_eq (s : State) : tintOperands s = answersTable (operandChecks s .tint)
    (f64val (amountReg s.params .tint), (parseTint s.params.tintHex0 s.params.tintHex1).getD []) := by
  rw [tintOperands, tintColour, operandChecks, answersTable_cons, answersTable_cons, answersTable_nil]
  cases parseTint s.params.tintHex0 s.params.tintHex1 with
  | none => rfl
  | some t => rw [except_ok_bind, amountOperand_bind]; rfl

theorem posterOperands_eq (s : State) : posterOperands s = answersTable (operandChecks s .poster)
    (f64val (amountReg s.params .poster), s.params.posterLevels.toNat) := by
  rw [posterOperands, checkParam_bind, operandChecks, answersTable_cons, answersTable_cons, answersTable_nil,
    amountOperand_bind]
  rfl

theorem mosaicOperands_eq (s : State) : mosaicOperands s = answersTable (operandChecks s .mosaic)
    (f64val (amountReg s.params .mosaic), s.params.mosaicSize.toNat) := by
  rw [mosaicOperands, checkParam_bind, operandChecks, answersTable_cons, answersTable_cons, answersTable_nil,
    amountOperand_bind]
  rfl

theorem presetOperands_eq (s : State) (a : Amount) (ws : List Rat) (norm : Bool) :
    presetOperands s a ws norm = answersTable [(amountOffset a, f64Finite (amountReg s.params a))]
      (f64val (amountReg s.params a), 3, effectiveWeights norm ws) := by
  rw [presetOperands, amountOperand_bind, answersTable_cons, answersTable_nil]
  rfl

/-- The checks of a size register and an amount, then weight entries from 0 on. -/
theorem firstFailing_entries {m : Memory} {base n off : Nat}
    (h : firstFailing ((List.range n).map fun j => (base + 8 * j, entryFinite m j)) = some off) :
    ∃ j, j < n ∧ off = base + 8 * j ∧ entryFinite m j = false ∧ ∀ k, k < j → entryFinite m k = true :=
  firstFailing_range_some h

theorem entries_finite_of_none {m : Memory} {base n : Nat}
    (h : firstFailing ((List.range n).map fun j => (base + 8 * j, entryFinite m j)) = none) :
    ∀ j, j < n → entryFinite m j = true := by
  intro j hj
  rw [firstFailing_eq_none] at h
  exact h _ (List.mem_map.2 ⟨j, List.mem_range.2 hj, rfl⟩)

/-- Weight entries 0 to n - 1, all finite. -/
theorem weightValues_entryValues {m : Memory} {n : Nat} (sp : Space) (base : Nat)
    (h : ∀ j, j < n → entryFinite m j = true) : weightValues m sp base 0 n = .ok (entryValues m n) := by
  rw [weightValues_ok sp base n fun j _ hj => h j (by omega), entryValues, List.range_eq_range']

/-- A failing entry that is written is InvalidParameter at its offset. -/
theorem weightValues_of_firstFailing {m : Memory} {base n off : Nat} (sp : Space)
    (h : firstFailing ((List.range n).map fun j => (base + 8 * j, entryFinite m j)) = some off)
    (hw : ∀ j, j < n → base + 8 * j ≤ off → entryWritten m j = true) :
    weightValues m sp base 0 n = .error (.raise .invalidParameter (BitVec.ofNat 32 off)) := by
  obtain ⟨j, hj, hoff, hbad, hlow⟩ := firstFailing_entries h
  rw [weightValues_error sp base n (Nat.zero_le j) (by omega) (fun k _ hk => hlow k hk) hbad,
    if_pos (hw j hj (by omega)), hoff]

theorem ksizeLegal_eq (k : Nat) :
    ksizeLegal k = decide (k % 2 = 1 ∧ 3 ≤ k ∧ k ≤ Config.maxKsize) := by
  rw [ksizeLegal, Bool.eq_iff_iff]; simp [and_assoc]

theorem glenLegal_eq (n : Nat) : glenLegal n = decide (n % 2 = 1 ∧ 1 ≤ n ∧ n ≤ Config.maxGtaps) := by
  rw [glenLegal, Bool.eq_iff_iff]; simp [and_assoc]

/-- CONV.MATRIX's operands as its four checks in order. -/
theorem matrixOperands_eq (s : State) (norm : Bool) : matrixOperands s norm =
    if decide (ksizeOf s % 2 = 1 ∧ 3 ≤ ksizeOf s ∧ ksizeOf s ≤ Config.maxKsize) then
      if f64Finite (amountReg s.params .matrix) then
        weightValues s.kw .kw 0x400 0 (ksizeOf s * ksizeOf s) >>= fun ws =>
          if norm = true ∧ ws.sum = 0 then .error (.raise .invalidBuffer 0x400)
          else .ok (f64val (amountReg s.params .matrix), ksizeOf s, effectiveWeights norm ws)
      else .error (.raise .invalidParameter 0x0C8)
    else .error (.raise .invalidParameter 0x02C) := by
  rw [matrixOperands, checkParam_bind, amountOperand_bind, ksizeLegal_eq, ksizeOf]
  congr 2
  cases weightValues s.kw .kw 0x400 0 (s.params.ksize.toNat * s.params.ksize.toNat) with
  | error e => rfl
  | ok ws =>
    simp only [except_ok_bind]
    cases norm
    · rfl
    · simp only [if_true, true_and, checkSum]
      split_ifs <;> rfl

/-- GBLUR's operands as its three checks in order. -/
theorem gblurOperands_eq (s : State) : gblurOperands s =
    if decide (glenOf s % 2 = 1 ∧ 1 ≤ glenOf s ∧ glenOf s ≤ Config.maxGtaps) then
      weightValues s.gt .gt 0x800 0 (glenOf s) >>= fun gs =>
        if gs.sum = 0 then .error (.raise .invalidBuffer 0x800)
        else .ok (glenOf s, effectiveWeights true gs)
    else .error (.raise .invalidParameter 0x030) := by
  rw [gblurOperands, checkParam_bind, glenLegal_eq, glenOf]
  congr 1
  cases weightValues s.gt .gt 0x800 0 s.params.glen.toNat with
  | error e => rfl
  | ok gs =>
    simp only [except_ok_bind, checkSum]
    split_ifs <;> rfl

/-- CONV.MATRIX's operands where checks 3 and 4 pass. -/
theorem matrixOperands_ok {s : State} {norm : Bool} (h : firstFailing (operandChecks s .convMatrix) = none)
    (hs : norm = true → (entryValues s.kw (ksizeOf s * ksizeOf s)).sum ≠ 0) :
    matrixOperands s norm = .ok (f64val (amountReg s.params .matrix), ksizeOf s,
      effectiveWeights norm (entryValues s.kw (ksizeOf s * ksizeOf s))) := by
  rw [operandChecks, firstFailing_cons, firstFailing_cons] at h
  split_ifs at h with h1 h2
  have h2' : f64Finite (amountReg s.params .matrix) = true := h2
  rw [matrixOperands_eq, if_pos h1, if_pos h2', weightValues_entryValues .kw 0x400 (entries_finite_of_none h),
    except_ok_bind, if_neg]
  rintro ⟨hn, h0⟩
  exact hs hn h0

/-- GBLUR's operands where checks 3 and 4 pass. -/
theorem gblurOperands_ok {s : State} (h : firstFailing (operandChecks s .gblur) = none)
    (hs : (entryValues s.gt (glenOf s)).sum ≠ 0) :
    gblurOperands s = .ok (glenOf s, effectiveWeights true (entryValues s.gt (glenOf s))) := by
  rw [operandChecks, firstFailing_cons] at h
  split_ifs at h with h1
  rw [gblurOperands_eq, if_pos h1, weightValues_entryValues .gt 0x800 (entries_finite_of_none h), except_ok_bind,
    if_neg hs]

/-- CONV.MATRIX's operands where a check of the table fails and the entries up to it are written. -/
theorem matrixOperands_error {s : State} {norm : Bool} {off : Nat}
    (h : firstFailing (operandChecks s .convMatrix) = some off)
    (hw : ∀ j, j < ksizeOf s * ksizeOf s → 0x400 + 8 * j ≤ off → entryWritten s.kw j = true) :
    matrixOperands s norm = .error (.raise .invalidParameter (BitVec.ofNat 32 off)) := by
  rw [operandChecks, firstFailing_cons, firstFailing_cons] at h
  rw [matrixOperands_eq]
  split_ifs at h with h1 h2
  · have h2' : f64Finite (amountReg s.params .matrix) = true := h2
    rw [if_pos h1, if_pos h2', weightValues_of_firstFailing .kw h hw]
    rfl
  · have h2' : ¬ f64Finite (amountReg s.params .matrix) = true := h2
    simp only [Option.some.injEq] at h
    rw [if_pos h1, if_neg h2', ← h]
    rfl
  · simp only [Option.some.injEq] at h
    rw [if_neg h1, ← h]
    rfl

/-- GBLUR's operands where a check of the table fails and the entries up to it are written. -/
theorem gblurOperands_error {s : State} {off : Nat} (h : firstFailing (operandChecks s .gblur) = some off)
    (hw : ∀ j, j < glenOf s → 0x800 + 8 * j ≤ off → entryWritten s.gt j = true) :
    gblurOperands s = .error (.raise .invalidParameter (BitVec.ofNat 32 off)) := by
  rw [operandChecks, firstFailing_cons] at h
  rw [gblurOperands_eq]
  split_ifs at h with h1
  · rw [if_pos h1, weightValues_of_firstFailing .gt h hw]
    rfl
  · simp only [Option.some.injEq] at h
    rw [if_neg h1, ← h]
    rfl

/-! ### The frame of a pixel command -/

/-- A pixel command stops at a failing check, or completes with its whole output: nothing else. -/
theorem pixelCommand_cases {α : Type} (s : State) (operands : Except Stop α) (lane : α → Nat → Nat → Nat → Nat) :
    (∃ e, pixelCommand s operands lane = stopCommand e s) ∨
      ∃ v, BufferFits s ∧ operands = .ok v ∧ InputWritten s ∧
        pixelCommand s operands lane = .next (completeCommand (writeOutput s (lane v))) := by
  unfold pixelCommand
  cases hb : checkBuffer s with
  | error e => exact .inl ⟨e, rfl⟩
  | ok u =>
    cases operands with
    | error e => exact .inl ⟨e, rfl⟩
    | ok v =>
      cases hi : checkInput s with
      | error e => exact .inl ⟨e, rfl⟩
      | ok u' => exact .inr ⟨v, (checkBuffer_ok s).1 hb, rfl, (checkInput_ok s).1 hi, rfl⟩

/-- A pixel command whose checks pass completes. -/
theorem pixelCommand_completes {α : Type} {s : State} {operands : Except Stop α} {v : α}
    (lane : α → Nat → Nat → Nat → Nat) (hb : BufferFits s) (ho : operands = .ok v) (hi : InputWritten s) :
    pixelCommand s operands lane = .next (completeCommand (writeOutput s (lane v))) := by
  unfold pixelCommand
  rw [(checkBuffer_ok s).2 hb, ho, (checkInput_ok s).2 hi]

/-- A pixel command whose operand checks fail stops there. -/
theorem pixelCommand_operand_error {α : Type} {s : State} {operands : Except Stop α} {e : Stop}
    (lane : α → Nat → Nat → Nat → Nat) (hb : BufferFits s) (ho : operands = .error e) :
    pixelCommand s operands lane = stopCommand e s := by
  unfold pixelCommand
  rw [(checkBuffer_ok s).2 hb, ho]

/-- Everything a command can do: stop at a check, complete with a whole output, or restore the defaults. -/
theorem exec_cases (i : Instr) (s : State) :
    (∃ e, exec i s = stopCommand e s) ∨
      (i ≠ .defaults ∧ BufferFits s ∧ InputWritten s ∧
        ∃ lane, exec i s = .next (completeCommand (writeOutput s lane))) ∨
      (i = .defaults ∧ exec i s = .next (completeCommand { s with params := Params.reset })) := by
  have pix : ∀ {α : Type} (ops : Except Stop α) (lane : α → Nat → Nat → Nat → Nat), i ≠ .defaults →
      exec i s = pixelCommand s ops lane →
      (∃ e, exec i s = stopCommand e s) ∨
      (i ≠ .defaults ∧ BufferFits s ∧ InputWritten s ∧
        ∃ lane, exec i s = .next (completeCommand (writeOutput s lane))) ∨
      (i = .defaults ∧ exec i s = .next (completeCommand { s with params := Params.reset })) := by
    intro α ops lane hne h
    rcases pixelCommand_cases s ops lane with ⟨e, he⟩ | ⟨v, hb, _, hi, hc⟩
    · exact .inl ⟨e, h.trans he⟩
    · exact .inr (.inl ⟨hne, hb, hi, lane v, h.trans hc⟩)
  cases i with
  | defaults => exact .inr (.inr ⟨rfl, rfl⟩)
  | _ => exact pix _ _ (by simp) rfl

/-- An answer with a next state: an error record, a completed pixel command, or the defaults. -/
theorem exec_next_cases {i : Instr} {s t : State} (h : exec i s = .next t) :
    (∃ k info, t = raiseError k info s) ∨
      (i ≠ .defaults ∧ BufferFits s ∧ InputWritten s ∧ ∃ lane, t = completeCommand (writeOutput s lane)) ∨
      (i = .defaults ∧ t = completeCommand { s with params := Params.reset }) := by
  rcases exec_cases i s with ⟨e, he⟩ | ⟨hne, hb, hi, lane, hc⟩ | ⟨hd, hc⟩
  · rw [h] at he
    cases e with
    | raise k info => exact .inl ⟨k, info, by simpa [stopCommand] using he⟩
    | unwritten sp a => simp [stopCommand] at he
  · exact .inr (.inl ⟨hne, hb, hi, lane, by simpa [h] using hc⟩)
  · exact .inr (.inr ⟨hd, by simpa [h] using hc⟩)

/-! ### The output -/

theorem bufBytes_pos_of_lt {s : State} {x y : Nat} (hx : x < bufW s) (hy : y < bufH s) (k : Nat) (hk : k < 4) :
    pixelOffset (bufW s) x y k < bufBytes s := by
  have h1 : y * bufW s + x < bufW s * bufH s := by
    have : (y + 1) * bufW s ≤ bufH s * bufW s := Nat.mul_le_mul_right _ hy
    rw [Nat.add_mul, Nat.one_mul] at this
    rw [Nat.mul_comm (bufW s) (bufH s)]
    omega
  rw [pixelOffset, bufBytes]
  omega

/-- The output byte of channel `k` of the pixel at (x, y). -/
theorem outByte_pixel {s : State} {x : Nat} (hx : x < bufW s) (lane : Nat → Nat → Nat → Nat) (y k : Nat) (hk : k < 4) :
    outByte s lane (pixelOffset (bufW s) x y k)
      = if k = 3 then BitVec.ofNat 8 (inCh s x y 3) else BitVec.ofNat 8 (lane x y k) := by
  have h4 : pixelOffset (bufW s) x y k / 4 = x + bufW s * y := by
    rw [pixelOffset, Nat.mul_comm y]; omega
  have hm : pixelOffset (bufW s) x y k % 4 = k := by rw [pixelOffset]; omega
  have hpos : 0 < bufW s := by omega
  simp only [outByte, h4, hm, Nat.add_mul_mod_self_left, Nat.mod_eq_of_lt hx, Nat.add_mul_div_left _ _ hpos,
    Nat.div_eq_of_lt hx, Nat.zero_add]

/-- The blender's result is a byte (40_blender.md R115). -/
theorem blend_le (a c : Rat) (o : Nat) : blend a c o ≤ 255 := by
  have h : roundhu (clampQ (a * c + (1 - a) * o) 0 255) ≤ 255 := by
    have hc : clampQ (a * c + (1 - a) * o) 0 255 ≤ 255 := min_le_right _ _
    have hf : roundhu (clampQ (a * c + (1 - a) * o) 0 255) < 256 := by
      rw [roundhu, Rat.floor_lt_iff]
      push_cast
      linarith
    omega
  rw [blend]
  omega

/-- A completed pixel command's frame. -/
theorem completed_writeOutput (s : State) (lane : Nat → Nat → Nat → Nat) :
    Completed s (completeCommand (writeOutput s lane)) := by
  refine ⟨rfl, fun a ha => ?_⟩
  rw [completeCommand_outMem, writeOutput_outMem, read_overwrite, if_neg (by omega)]

/-- A completed pixel command's output. -/
theorem shows_writeOutput {s : State} {lane : Nat → Nat → Nat → Nat} (hi : InputWritten s)
    (hl : ∀ x y c, lane x y c ≤ 255) : Shows s (completeCommand (writeOutput s lane)) lane := by
  intro x y hx hy
  rw [completeCommand_outMem, writeOutput_outMem]
  constructor
  · intro c hc
    rw [read_overwrite, if_pos (bufBytes_pos_of_lt hx hy c (by omega)), outByte_pixel hx lane y c (by omega),
      if_neg (by omega), Option.map_some, BitVec.toNat_ofNat, Nat.mod_eq_of_lt (by have := hl x y c; omega)]
  · have hlt := bufBytes_pos_of_lt hx hy 3 (by omega)
    rw [read_overwrite, if_pos hlt, outByte_pixel hx lane y 3 (by omega), if_pos rfl]
    obtain ⟨b, hb⟩ := Option.isSome_iff_exists.1 (hi _ hlt)
    rw [inCh, hb]
    simp

/-- Two lanes that agree on the buffer show the same output. -/
theorem shows_congr {s t : State} {f g : Nat → Nat → Nat → Nat} (h : Shows s t f)
    (hfg : ∀ x y c, x < bufW s → y < bufH s → c < 3 → f x y c = g x y c) : Shows s t g := by
  intro x y hx hy
  refine ⟨fun c hc => ?_, (h x y hx hy).2⟩
  rw [(h x y hx hy).1 c hc, hfg x y c hx hy hc]

end Sys2Proof.Machine
end

