-- ==== Sys2Proof/Laws/Agree.lean ====
section
/-! SUPPORT. Two states that agree on what a command reads take the same end with the same output (10_state.md R44). -/

namespace Sys2Proof.Machine

open Sys2Proof.Safety

/-- Agreement on everything a command reads. -/
structure Agree (s s' : State) : Prop where
  width   : s'.width = s.width
  height  : s'.height = s.height
  dataLen : s'.dataLen = s.dataLen
  params  : s'.params = s.params
  kw      : s'.kw = s.kw
  gt      : s'.gt = s.gt
  inMem   : s'.inMem = s.inMem

theorem inCh_agree {s s' : State} (a : Agree s s') : inCh s' = inCh s := by
  funext x y k
  simp only [inCh, bufW, a.width, a.inMem]

theorem neighbour_agree {s s' : State} (a : Agree s s') : neighbour s' = neighbour s := by
  funext
  simp only [neighbour, bufW, bufH, a.width, a.height, inCh_agree a]

theorem convLane_agree {s s' : State} (a : Agree s s') : convLane s' = convLane s := by
  funext v x y c
  simp only [convLane, convSum, inCh_agree a, neighbour_agree a]

theorem outByte_agree {s s' : State} (a : Agree s s') : outByte s' = outByte s := by
  funext l b
  simp only [outByte, bufW, a.width, inCh_agree a]

/-- Both states stop at the same check, or both complete with the same lanes. -/
def SameEnd (i : Instr) (s s' : State) : Prop :=
  (∃ e, exec i s = stopCommand e s ∧ exec i s' = stopCommand e s') ∨
    (i ≠ .defaults ∧ ∃ lane, exec i s = .next (completeCommand (writeOutput s lane)) ∧
      exec i s' = .next (completeCommand (writeOutput s' lane))) ∨
    i = .defaults

theorem sameEnd_of_pixelCommand {α : Type} {i : Instr} {s s' : State} (a : Agree s s') {ops ops' : Except Stop α}
    {lane lane' : α → Nat → Nat → Nat → Nat} (hi : i ≠ .defaults) (h : exec i s = pixelCommand s ops lane)
    (h' : exec i s' = pixelCommand s' ops' lane') (ho : ops' = ops) (hl : lane' = lane) : SameEnd i s s' := by
  subst ho hl
  have hb : checkBuffer s' = checkBuffer s := by
    unfold checkBuffer bufBytes bufW bufH
    rw [a.width, a.height, a.dataLen]
  have hc : checkInput s' = checkInput s := by
    simp only [checkInput, bufBytes, bufW, bufH, a.width, a.height, a.inMem]
  unfold SameEnd
  rw [h, h']
  unfold pixelCommand
  rw [hb, hc]
  cases checkBuffer s with
  | error e => exact .inl ⟨e, rfl, rfl⟩
  | ok _ =>
    cases ops' with
    | error e => exact .inl ⟨e, rfl, rfl⟩
    | ok v =>
      cases checkInput s with
      | error e => exact .inl ⟨e, rfl, rfl⟩
      | ok _ => exact .inr (.inl ⟨hi, _, rfl, rfl⟩)

theorem sameEnd_preset {i : Instr} {s s' : State} (a : Agree s s') {amt : Amount} {ws : List Rat} {norm : Bool}
    (hi : i ≠ .defaults) (h : ∀ u, exec i u = pixelCommand u (presetOperands u amt ws norm) (convLane u)) :
    SameEnd i s s' :=
  sameEnd_of_pixelCommand a hi (h s) (h s') (by simp only [presetOperands_eq, a.params]) (convLane_agree a)

theorem sameEnd_matrix {i : Instr} {s s' : State} (a : Agree s s') {norm : Bool} (hi : i ≠ .defaults)
    (h : ∀ u, exec i u = pixelCommand u (matrixOperands u norm) (convLane u)) : SameEnd i s s' :=
  sameEnd_of_pixelCommand a hi (h s) (h s') (by unfold matrixOperands amountOperand; rw [a.params, a.kw])
    (convLane_agree a)

theorem sameEnd_of_agree {s s' : State} (a : Agree s s') (i : Instr) : SameEnd i s s' := by
  have pix {α : Type} (ops : State → Except Stop α) (lane : State → α → Nat → Nat → Nat → Nat) (hi : i ≠ .defaults)
      (h : ∀ u, exec i u = pixelCommand u (ops u) (lane u)) (ho : ops s' = ops s) (hl : lane s' = lane s) :
      SameEnd i s s' := sameEnd_of_pixelCommand a hi (h s) (h s') ho hl
  cases i with
  | defaults => exact .inr (.inr rfl)
  | grey =>
    exact pix greyOperands greyLane (by decide) (fun _ => rfl)
      (by simp only [greyOperands_eq, operandChecks, amountCheck, a.params])
      (by funext; simp only [greyLane, luminance, inCh_agree a])
  | sepia =>
    exact pix sepiaOperands sepiaLane (by decide) (fun _ => rfl)
      (by simp only [sepiaOperands_eq, operandChecks, amountCheck, a.params])
      (by funext; simp only [sepiaLane, sepiaValue, inCh_agree a])
  | tint =>
    exact pix tintOperands tintLane (by decide) (fun _ => rfl)
      (by simp only [tintOperands_eq, operandChecks, amountCheck, a.params])
      (by funext; simp only [tintLane, inCh_agree a])
  | poster =>
    exact pix posterOperands posterLane (by decide) (fun _ => rfl)
      (by simp only [posterOperands_eq, operandChecks, amountCheck, a.params])
      (by funext; simp only [posterLane, inCh_agree a])
  | mosaic =>
    exact pix mosaicOperands mosaicLane (by decide) (fun _ => rfl)
      (by simp only [mosaicOperands_eq, operandChecks, amountCheck, a.params])
      (by funext; simp only [mosaicLane, inCh_agree a])
  | convBox => exact sameEnd_preset a (by decide) fun _ => rfl
  | convEdges => exact sameEnd_preset a (by decide) fun _ => rfl
  | convEmboss => exact sameEnd_preset a (by decide) fun _ => rfl
  | convSharpen => exact sameEnd_preset a (by decide) fun _ => rfl
  | convMatrix => exact sameEnd_matrix a (by decide) fun _ => rfl
  | convMatrixN => exact sameEnd_matrix a (by decide) fun _ => rfl
  | gblur =>
    exact pix gblurOperands gblurLane (by decide) (fun _ => rfl) (by unfold gblurOperands; rw [a.params, a.gt])
      (by funext v x y c; simp only [gblurLane, blurSum, blurRow, neighbour_agree a, bufH, a.height, inCh_agree a])

end Sys2Proof.Machine
end

