-- ==== Sys2Proof/Laws/Bus.lean ====
section
/-! SUPPORT. What one bus transaction does, said once by what it reaches, and the little-endian bytes of a bus word
(20_memory.md R60 to R64). -/

namespace Sys2Proof.Machine

open Sys2Proof.Safety

/-! ### What a transaction reaches -/

theorem supported_iff (size : Size) (off : BitVec 22) :
    supported size off = true ↔ off.toNat % sizeBytes size = 0 ∧
      ((off.toNat < 0x100000 ∧ size = .b4) ∨ (0x100000 ≤ off.toNat ∧ off.toNat < 0x300000)) := by
  simp [supported]

/-- The target in terms of the offset as a number, the window sizes being the whole windows on this hardware. -/
theorem target_eq (size : Size) (off : BitVec 22) :
    target size off =
      if off.toNat % sizeBytes size ≠ 0 then .unsupported
      else if off.toNat < 0x100000 then (if size = .b4 then .reg (regLoc off.toNat) else .unsupported)
      else if off.toNat < 0x200000 then .pixel .inMem (off.toNat - 0x100000)
      else if off.toNat < 0x300000 then .pixel .outMem (off.toNat - 0x200000)
      else .unsupported := by
  have hm : Config.memBytes = 0x100000 := rfl
  unfold target
  rw [hm]
  by_cases h1 : off.toNat % sizeBytes size ≠ 0
  · rw [if_pos h1, if_pos h1]
  rw [if_neg h1, if_neg h1]
  by_cases h2 : off.toNat < 0x100000
  · rw [if_pos h2, if_pos h2]
    cases size <;> rfl
  rw [if_neg h2, if_neg h2]
  by_cases h3 : off.toNat < 0x200000
  · rw [if_pos h3, if_pos h3, if_pos (by omega)]
  rw [if_neg h3, if_neg h3]
  by_cases h4 : off.toNat < 0x300000
  · rw [if_pos h4, if_pos h4, if_pos (by omega)]
  rw [if_neg h4, if_neg h4]

theorem target_unsupported {size : Size} {off : BitVec 22} (h : supported size off = false) :
    target size off = .unsupported := by
  rw [target_eq]
  have h' : ¬ supported size off = true := by simp [h]
  rw [supported_iff] at h'
  by_cases h1 : off.toNat % sizeBytes size ≠ 0
  · rw [if_pos h1]
  rw [if_neg h1]
  by_cases h2 : off.toNat < 0x100000
  · rw [if_pos h2, if_neg fun hs => h' ⟨by omega, .inl ⟨h2, hs⟩⟩]
  rw [if_neg h2]
  have h3 : ¬ off.toNat < 0x300000 := fun h3 => h' ⟨by omega, .inr ⟨by omega, h3⟩⟩
  rw [if_neg (by omega), if_neg h3]

theorem target_reg {size : Size} {off : BitVec 22} (h : supported size off = true) (hlt : off.toNat < 0x100000) :
    size = .b4 ∧ off.toNat % 4 = 0 ∧ target size off = .reg (regLoc off.toNat) := by
  obtain ⟨h1, h2⟩ := (supported_iff size off).1 h
  have hs : size = .b4 := by
    rcases h2 with h2 | h2
    · exact h2.2
    · omega
  subst hs
  refine ⟨rfl, h1, ?_⟩
  rw [target_eq, if_neg (by omega), if_pos hlt, if_pos rfl]

/-- The pixel memory a window offset belongs to (20_memory.md R64). -/
def windowSpace (off : BitVec 22) : Space := if off.toNat < 0x200000 then .inMem else .outMem

theorem target_pixel {size : Size} {off : BitVec 22} (h : supported size off = true) (hge : 0x100000 ≤ off.toNat) :
    target size off = .pixel (windowSpace off) (off.toNat % 0x100000) ∧
      off.toNat % 0x100000 % sizeBytes size = 0 ∧ off.toNat < 0x300000 := by
  obtain ⟨h1, h2⟩ := (supported_iff size off).1 h
  have h3 : off.toNat < 0x300000 := by
    rcases h2 with h2 | h2
    · omega
    · exact h2.2
  refine ⟨?_, ?_, h3⟩
  · rw [target_eq, if_neg (by omega), if_neg (by omega), windowSpace]
    by_cases h4 : off.toNat < 0x200000
    · rw [if_pos h4, if_pos h4, show off.toNat - 0x100000 = off.toNat % 0x100000 by omega]
    · rw [if_neg h4, if_neg h4, if_pos h3, show off.toNat - 0x200000 = off.toNat % 0x100000 by omega]
  · cases size <;> simp only [sizeBytes] at h1 ⊢ <;> omega

theorem target_ctrl : target .b4 0x010 = .reg .ctrl := by decide
theorem target_status : target .b4 0x014 = .reg .status := by decide
theorem target_cmd : target .b4 0x01C = .reg .cmd := by decide

/-! ### Transactions by what they reach -/

theorem busWrite_reg {s : State} {size : Size} {off : BitVec 22} {loc : RegLoc} (hr : s.rst = false)
    (ht : target size off = .reg loc) (v : Word) : busWrite s size off v = writeReg s loc v := by
  unfold busWrite
  rw [hr, ht]
  rfl

theorem busWrite_pixel {s : State} {size : Size} {off : BitVec 22} {sp : Space} {a : Nat} (hr : s.rst = false)
    (ht : target size off = .pixel sp a) (v : Word) :
    busWrite s size off v = whenIdle s (setMemory s sp (storeLE (memory s sp) a (sizeBytes size) v.toNat)) := by
  unfold busWrite
  rw [hr, ht]
  rfl

theorem busWrite_unsupported {s : State} {size : Size} {off : BitVec 22} (hr : s.rst = false)
    (ht : target size off = .unsupported) (v : Word) : busWrite s size off v = { s with accErr := true } := by
  unfold busWrite
  rw [hr, ht]
  rfl

theorem busWrite_rst {s : State} (hr : s.rst = true) (size : Size) (off : BitVec 22) (v : Word) :
    busWrite s size off v = s := by
  unfold busWrite
  rw [hr]
  rfl

theorem busRead_reg {s : State} {size : Size} {off : BitVec 22} {loc : RegLoc} (hr : s.rst = false)
    (ht : target size off = .reg loc) : busRead s size off = { s with rdata := readReg s loc } := by
  unfold busRead
  rw [hr, ht]
  rfl

theorem busRead_pixel {s : State} {size : Size} {off : BitVec 22} {sp : Space} {a : Nat} (hr : s.rst = false)
    (ht : target size off = .pixel sp a) : busRead s size off = readPixels s sp a (sizeBytes size) := by
  unfold busRead
  rw [hr, ht]
  rfl

theorem busRead_unsupported {s : State} {size : Size} {off : BitVec 22} (hr : s.rst = false)
    (ht : target size off = .unsupported) : busRead s size off = { s with rdata := 0, accErr := true } := by
  unfold busRead
  rw [hr, ht]
  rfl

theorem busRead_rst {s : State} (hr : s.rst = true) (size : Size) (off : BitVec 22) :
    busRead s size off = { s with rdata := 0 } := by
  unfold busRead
  rw [hr]
  rfl

theorem whenIdle_idle {s : State} (h : s.busy = false) (t : State) : whenIdle s t = t := by
  unfold whenIdle
  rw [h]
  rfl

theorem whenIdle_busy {s : State} (h : s.busy = true) (t : State) : whenIdle s t = { s with busyWr := true } := by
  unfold whenIdle
  rw [h]
  rfl

theorem busWrite_ctrl {s : State} (hr : s.rst = false) (v : Word) : busWrite s .b4 0x010 v = writeCtrl v s :=
  busWrite_reg hr target_ctrl v

theorem busWrite_status {s : State} (hr : s.rst = false) (v : Word) : busWrite s .b4 0x014 v = writeStatus v s :=
  busWrite_reg hr target_status v

theorem busWrite_cmd {s : State} (hr : s.rst = false) (v : Word) :
    busWrite s .b4 0x01C v = whenIdle s (startCommand v s) := busWrite_reg hr target_cmd v

/-- Everything a read changes: the read data, and ACC_ERR or a draw at most. -/
theorem busRead_frame (s : State) (size : Size) (off : BitVec 22) :
    ∃ r a d, busRead s size off = { s with rdata := r, accErr := a, draws := d } := by
  unfold busRead
  split_ifs
  · exact ⟨0, s.accErr, s.draws, rfl⟩
  · split
    · exact ⟨0, true, s.draws, rfl⟩
    · exact ⟨_, s.accErr, s.draws, rfl⟩
    · unfold readPixels
      split_ifs
      · exact ⟨_, s.accErr, _, rfl⟩
      · exact ⟨_, s.accErr, s.draws, rfl⟩

/-! ### The register map -/

/-- A location whose writes are dropped while busy, CMD apart. -/
def RegLoc.isData : RegLoc → Bool
  | .word _ | .half _ _ | .weight _ _ => true
  | _ => false

/-- A read-only or reserved location (20_memory.md R69). -/
def RegLoc.isReadOnly : RegLoc → Bool
  | .id | .version | .cap0 | .capMemBytes | .errInfo | .reserved => true
  | _ => false

theorem dataRegister_iff (off : Nat) : dataRegister off = true ↔ off % 4 = 0 ∧
    ((0x020 ≤ off ∧ off < 0x03C) ∨ (0x040 ≤ off ∧ off < 0x048) ∨ (0x080 ≤ off ∧ off < 0x0D0) ∨
      (0x100 ≤ off ∧ off < 0x118) ∨ (0x120 ≤ off ∧ off < 0x168) ∨ (0x400 ≤ off ∧ off < 0x688) ∨
      (0x800 ≤ off ∧ off < 0xFF8)) := by
  simp [dataRegister, or_assoc]

/-- The register map above the 32-bit registers, with the memory sizes as numbers. -/
theorem regLoc_cases (off : Nat) :
    (off < 0x080 ∧ regLoc off = lowRegLoc off) ∨
    (∃ r hi, regLoc off = .half r hi ∧ ((0x080 ≤ off ∧ off < 0x0D0) ∨ (0x100 ≤ off ∧ off < 0x118) ∨
      (0x120 ≤ off ∧ off < 0x168))) ∨
    (0x400 ≤ off ∧ off < 0x688 ∧ regLoc off = .weight .kw (off - 0x400)) ∨
    (0x800 ≤ off ∧ off < 0xFF8 ∧ regLoc off = .weight .gt (off - 0x800)) ∨
    (regLoc off = .reserved ∧ 0x080 ≤ off ∧ ¬ (0x080 ≤ off ∧ off < 0x0D0) ∧ ¬ (0x100 ≤ off ∧ off < 0x118) ∧
      ¬ (0x120 ≤ off ∧ off < 0x168) ∧ ¬ (0x400 ≤ off ∧ off < 0x688) ∧ ¬ (0x800 ≤ off ∧ off < 0xFF8)) := by
  have hk : Config.spaceBytes .kw = 648 := rfl
  have hg : Config.spaceBytes .gt = 2040 := rfl
  unfold regLoc
  rw [hk, hg]
  split_ifs with h1 h2 h3 h4 h5 h6
  · exact .inl ⟨h1, rfl⟩
  · exact .inr (.inl ⟨_, _, rfl, .inl h2⟩)
  · exact .inr (.inl ⟨_, _, rfl, .inr (.inl h3)⟩)
  · exact .inr (.inl ⟨_, _, rfl, .inr (.inr h4)⟩)
  · exact .inr (.inr (.inl ⟨by omega, by omega, rfl⟩))
  · exact .inr (.inr (.inr (.inl ⟨by omega, by omega, rfl⟩)))
  · exact .inr (.inr (.inr (.inr ⟨rfl, by omega, h2, h3, h4, by omega, by omega⟩)))

/-- Below 0x080 the map is a table. -/
theorem lowRegLoc_class {off : Nat} (hlt : off < 0x080) (h4 : off % 4 = 0) :
    (dataRegister off = true → (lowRegLoc off).isData = true) ∧
      (dataRegister off = false → off ≠ 0x010 → off ≠ 0x014 → off ≠ 0x01C → (lowRegLoc off).isReadOnly = true) := by
  obtain ⟨q, rfl⟩ : ∃ q, off = 4 * q := ⟨off / 4, by omega⟩
  have hq : q < 32 := by omega
  clear hlt h4
  interval_cases q <;> decide

/-- Every aligned register offset but CTRL, STATUS and CMD is a data location or ignores writes. -/
theorem regLoc_class {off : Nat} (h4 : off % 4 = 0) :
    (dataRegister off = true → (regLoc off).isData = true) ∧
      (dataRegister off = false → off ≠ 0x010 → off ≠ 0x014 → off ≠ 0x01C → (regLoc off).isReadOnly = true) := by
  rcases regLoc_cases off with ⟨hlt, h⟩ | ⟨r, hi, h, hoff⟩ | ⟨h1, h2, h⟩ | ⟨h1, h2, h⟩ | ⟨h, hge, h1, h2, h3, h5, h6⟩
  · rw [h]; exact lowRegLoc_class hlt h4
  all_goals rw [h]
  · refine ⟨fun _ => rfl, fun hd => absurd ((dataRegister_iff off).2 ⟨h4, by omega⟩) (by simp [hd])⟩
  · refine ⟨fun _ => rfl, fun hd => absurd ((dataRegister_iff off).2 ⟨h4, by omega⟩) (by simp [hd])⟩
  · refine ⟨fun _ => rfl, fun hd => absurd ((dataRegister_iff off).2 ⟨h4, by omega⟩) (by simp [hd])⟩
  · refine ⟨fun hd => ?_, fun _ _ _ _ => rfl⟩
    have := ((dataRegister_iff off).1 hd).2
    omega

theorem writeReg_data {s : State} {loc : RegLoc} (h : loc.isData = true) (hb : s.busy = true) (v : Word) :
    writeReg s loc v = { s with busyWr := true } := by
  cases loc <;> first | exact whenIdle_busy hb _ | cases h

theorem writeReg_readOnly {s : State} {loc : RegLoc} (h : loc.isReadOnly = true) (v : Word) :
    writeReg s loc v = s := by
  cases loc <;> first | rfl | cases h

/-- CMD stands at 0x01C, CTRL at 0x010 and STATUS at 0x014 only, and a weight location lies inside its memory. -/
theorem regLoc_unique {off : Nat} (h4 : off % 4 = 0) :
    (regLoc off = .cmd → off = 0x01C) ∧ (regLoc off = .ctrl → off = 0x010) ∧ (regLoc off = .status → off = 0x014) ∧
      ∀ sp a, regLoc off = .weight sp a → a + 4 ≤ Config.spaceBytes sp := by
  have low : off < 0x080 → (lowRegLoc off = .cmd → off = 0x01C) ∧ (lowRegLoc off = .ctrl → off = 0x010) ∧
      (lowRegLoc off = .status → off = 0x014) ∧ ∀ sp a, lowRegLoc off ≠ .weight sp a := by
    intro hlt
    obtain ⟨q, rfl⟩ : ∃ q, off = 4 * q := ⟨off / 4, by omega⟩
    have hq : q < 32 := by omega
    clear hlt h4
    interval_cases q <;> simp [lowRegLoc]
  rcases regLoc_cases off with ⟨hlt, h⟩ | ⟨r, hi, h, hoff⟩ | ⟨h1, h2, h⟩ | ⟨h1, h2, h⟩ | ⟨h, _⟩
  · obtain ⟨l1, l2, l3, l4⟩ := low hlt
    rw [h]
    exact ⟨l1, l2, l3, fun sp a hw => absurd hw (l4 sp a)⟩
  all_goals
    rw [h]
    refine ⟨nofun, nofun, nofun, fun sp a hw => ?_⟩
  · cases hw
  · cases hw
    have hk : Config.spaceBytes .kw = 648 := rfl
    omega
  · cases hw
    have hg : Config.spaceBytes .gt = 2040 := rfl
    omega
  · cases hw

/-- Everything a host write can do, said once. -/
inductive WriteEffect (s : State) (size : Size) (off : BitVec 22) (v : Word) : State → Prop where
  /-- `rst` is high, or the location is read-only or reserved. -/
  | ignored : WriteEffect s size off v s
  /-- The access is unsupported. -/
  | unsupported : s.rst = false → WriteEffect s size off v { s with accErr := true }
  /-- A command is running. -/
  | dropped : s.rst = false → s.busy = true → WriteEffect s size off v { s with busyWr := true }
  /-- CMD of an idle block. -/
  | start : s.rst = false → s.busy = false → size = .b4 → off = 0x01C → WriteEffect s size off v (startCommand v s)
  /-- CTRL. -/
  | ctrl : s.rst = false → size = .b4 → off = 0x010 → WriteEffect s size off v (writeCtrl v s)
  /-- STATUS. -/
  | status : s.rst = false → size = .b4 → off = 0x014 → WriteEffect s size off v (writeStatus v s)
  /-- A geometry or parameter register of an idle block. -/
  | register (width height dataLen : Word) (params : Params) : s.rst = false → s.busy = false →
      WriteEffect s size off v { s with width := width, height := height, dataLen := dataLen, params := params }
  /-- Bytes inside a memory of an idle block. -/
  | bytes (sp : Space) (a n : Nat) : s.rst = false → s.busy = false → a + n ≤ Config.spaceBytes sp →
      WriteEffect s size off v (setMemory s sp (storeLE (memory s sp) a n v.toNat))

theorem busWrite_effect (s : State) (size : Size) (off : BitVec 22) (v : Word) :
    WriteEffect s size off v (busWrite s size off v) := by
  by_cases hr : s.rst = true
  · rw [busWrite_rst hr]
    exact .ignored
  have hr : s.rst = false := by simpa using hr
  by_cases hs : supported size off = true
  · by_cases hlt : off.toNat < 0x100000
    · obtain ⟨rfl, h4, ht⟩ := target_reg hs hlt
      obtain ⟨hcmd, hctrl, hstatus, hweight⟩ := regLoc_unique h4
      rw [busWrite_reg hr ht]
      have eq : ∀ k : BitVec 22, off.toNat = k.toNat → off = k := fun k h => BitVec.eq_of_toNat_eq h
      cases hl : regLoc off.toNat with
      | ctrl => exact .ctrl hr rfl (eq 0x010 (hctrl hl))
      | status => exact .status hr rfl (eq 0x014 (hstatus hl))
      | cmd =>
        by_cases hb : s.busy = true
        · rw [writeReg, whenIdle_busy hb]; exact .dropped hr hb
        · have hb : s.busy = false := by simpa using hb
          rw [writeReg, whenIdle_idle hb]; exact .start hr hb rfl (eq 0x01C (hcmd hl))
      | word r =>
        by_cases hb : s.busy = true
        · rw [writeReg, whenIdle_busy hb]; exact .dropped hr hb
        · have hb : s.busy = false := by simpa using hb
          rw [writeReg, whenIdle_idle hb]
          cases r <;> exact .register _ _ _ _ hr hb
      | half r hi =>
        by_cases hb : s.busy = true
        · rw [writeReg, whenIdle_busy hb]; exact .dropped hr hb
        · have hb : s.busy = false := by simpa using hb
          rw [writeReg, whenIdle_idle hb]
          cases r <;> exact .register _ _ _ _ hr hb
      | weight sp a =>
        by_cases hb : s.busy = true
        · rw [writeReg, whenIdle_busy hb]; exact .dropped hr hb
        · have hb : s.busy = false := by simpa using hb
          rw [writeReg, whenIdle_idle hb]
          exact .bytes sp a 4 hr hb (hweight sp a hl)
      | _ => exact .ignored
    · obtain ⟨ht, ha, h3⟩ := target_pixel hs (by omega)
      rw [busWrite_pixel hr ht]
      by_cases hb : s.busy = true
      · rw [whenIdle_busy hb]; exact .dropped hr hb
      · have hb : s.busy = false := by simpa using hb
        rw [whenIdle_idle hb]
        refine .bytes _ _ _ hr hb ?_
        have hsp : Config.spaceBytes (windowSpace off) = 0x100000 := by unfold windowSpace; split_ifs <;> rfl
        rw [hsp]
        cases size <;> simp only [sizeBytes] at ha ⊢ <;> omega
  · rw [busWrite_unsupported hr (target_unsupported (by simpa using hs))]
    exact .unsupported hr

/-! ### Bytes of a bus word -/

theorem byte_of_word (v : Word) (j : Nat) : v.extractLsb' (8 * j) 8 = BitVec.ofNat 8 (v.toNat / 256 ^ j) := by
  apply BitVec.eq_of_toNat_eq
  rw [BitVec.extractLsb'_toNat, BitVec.toNat_ofNat, Nat.shiftRight_eq_div_pow, pow_mul,
    show (2 : Nat) ^ 8 = 256 from rfl]

theorem loadLE_byte (n : Nat) : ∀ (f : Nat → Byte) (a k : Nat), k < n →
    loadLE f a n / 256 ^ k % 256 = (f (a + k)).toNat := by
  induction n with
  | zero => intros; omega
  | succ n ih =>
    intro f a k hk
    have hlt := (f a).isLt
    cases k with
    | zero => rw [loadLE, pow_zero, Nat.div_one, show a + 0 = a from rfl]; omega
    | succ k =>
      rw [loadLE, pow_succ', ← Nat.div_div_eq_div_mul,
        show ((f a).toNat + 256 * loadLE f (a + 1) n) / 256 = loadLE f (a + 1) n by omega,
        ih f (a + 1) k (by omega), show a + 1 + k = a + (k + 1) by omega]

theorem sizeBytes_le (size : Size) : 1 ≤ sizeBytes size ∧ sizeBytes size ≤ 4 := by cases size <;> decide

/-- The bytes of a read word are the bytes read. -/
theorem ofNat_loadLE_byte {n : Nat} (hn : n ≤ 4) (f : Nat → Byte) (a k : Nat) (hk : k < n) :
    (BitVec.ofNat 32 (loadLE f a n)).extractLsb' (8 * k) 8 = f (a + k) := by
  have hlt : loadLE f a n < 2 ^ 32 :=
    calc loadLE f a n < 256 ^ n := loadLE_lt n f a
      _ ≤ 256 ^ 4 := Nat.pow_le_pow_right (by norm_num) hn
      _ = 2 ^ 32 := by norm_num
  rw [byte_of_word]
  apply BitVec.eq_of_toNat_eq
  rw [BitVec.toNat_ofNat, BitVec.toNat_ofNat, Nat.mod_eq_of_lt hlt, loadLE_byte n f a k hk]

/-- Bits above the bytes read are 0 (20_memory.md R61). -/
theorem ofNat_loadLE_high {n : Nat} (f : Nat → Byte) (a j : Nat) (hj : 8 * n ≤ j) :
    (BitVec.ofNat 32 (loadLE f a n)).getLsbD j = false := by
  have hlt : loadLE f a n < 2 ^ j :=
    calc loadLE f a n < 256 ^ n := loadLE_lt n f a
      _ = 2 ^ (8 * n) := by rw [pow_mul, show (2 : Nat) ^ 8 = 256 from rfl]
      _ ≤ 2 ^ j := Nat.pow_le_pow_right (by norm_num) hj
  rw [BitVec.getLsbD_ofNat, Nat.testBit_lt_two_pow hlt, Bool.and_false]

end Sys2Proof.Machine
end

