-- ==== Sys2Proof/Laws/Decoding.lean ====
section
/-! SUPPORT. A command word is its three fields, and what a decoded word's fields are (30_encoding.md R90 to R94). -/

namespace Sys2Proof

/-- Words with the same three fields are equal: the fields cover all 32 bits. -/
theorem word_of_fields {w v : Word} (h1 : rsvField w = rsvField v) (h2 : nField w = nField v)
    (h3 : opField w = opField v) : w = v := by
  apply BitVec.eq_of_getLsbD_eq
  intro i hi
  by_cases a : i < 8
  · have := congrArg (fun x => x.getLsbD i) h3
    simpa [opField, a] using this
  · by_cases b : i = 8
    · subst b; exact h2
    · have := congrArg (fun x => x.getLsbD (i - 9)) h1
      simp only [rsvField, BitVec.getLsbD_extractLsb'] at this
      simpa [show i - 9 < 23 by omega, show 9 + (i - 9) = i by omega] using this

/-- The fields of a word the decoder accepts are the table's fields of the command. -/
theorem decode_fields {w : Word} {i : Instr} (h : decode w = .ok i) :
    rsvField w = 0 ∧ nField w = i.fields.n ∧ opField w = i.fields.op := by
  unfold decode at h
  by_cases h1 : rsvField w ≠ 0
  · rw [if_pos h1] at h; cases h
  rw [if_neg h1] at h
  by_cases h2 : nField w = true
  · rw [if_pos h2] at h
    split_ifs at h with h3
    simp only [Except.ok.injEq] at h
    subst h
    exact ⟨by simpa using h1, h2, h3⟩
  · rw [if_neg h2] at h
    cases hj : opcodeMap (opField w) with
    | some j =>
      rw [hj] at h
      simp only [Except.ok.injEq] at h
      subst h
      have hn : nField w = false := by simpa using h2
      refine ⟨by simpa using h1, ?_⟩
      rw [hn]
      unfold opcodeMap at hj
      split at hj <;>
        first
          | (simp only [Option.some.injEq] at hj; subst hj; exact ⟨rfl, by assumption⟩)
          | cases hj
    | none => rw [hj] at h; dsimp only at h; split_ifs at h

end Sys2Proof
end

