-- ==== Sys2Proof/Laws/Kinds.lean ====
section
/-! SUPPORT. A command the decoder accepts never ends with UnknownFilter (44_dispatch.md R225 to R228). -/

namespace Sys2Proof.Machine

/-- An operand check that never answers UnknownFilter. -/
def NoUnknown {α : Type} (x : Except Stop α) : Prop := ∀ info, x ≠ .error (.raise .unknownFilter info)

theorem noUnknown_ok {α : Type} (a : α) : NoUnknown (.ok a) := nofun

theorem noUnknown_bind {α β : Type} {x : Except Stop α} {f : α → Except Stop β} (hx : NoUnknown x)
    (hf : ∀ a, NoUnknown (f a)) : NoUnknown (x >>= f) := by
  cases x with
  | ok a => exact hf a
  | error e =>
    intro info h
    rw [except_error_bind] at h
    injection h with h
    exact hx info (by rw [h])

theorem noUnknown_checkParam (off : Nat) (b : Bool) : NoUnknown (checkParam off b) := by
  cases b <;> simp [NoUnknown, checkParam]

theorem noUnknown_amount (s : State) (a : Amount) : NoUnknown (amountOperand s a) :=
  noUnknown_bind (noUnknown_checkParam _ _) fun _ => noUnknown_ok _

theorem noUnknown_finite (bs : List F64) : ∀ base, NoUnknown (finiteValues base bs) := by
  induction bs with
  | nil => intro; exact noUnknown_ok _
  | cons b bs ih =>
    intro base
    exact noUnknown_bind (noUnknown_checkParam _ _) fun _ => noUnknown_bind (ih _) fun _ => noUnknown_ok _

theorem noUnknown_weights (m : Memory) (sp : Space) (base n : Nat) : ∀ i, NoUnknown (weightValues m sp base i n) := by
  induction n with
  | zero => intro; exact noUnknown_ok _
  | succ n ih =>
    intro i
    refine noUnknown_bind ?_ fun _ =>
      noUnknown_bind (noUnknown_checkParam _ _) fun _ => noUnknown_bind (ih _) fun _ => noUnknown_ok _
    unfold weightEntry
    split
    · exact noUnknown_ok _
    · simp [NoUnknown]

theorem noUnknown_sum (off : Nat) (ws : List Rat) : NoUnknown (checkSum off ws) := by
  unfold checkSum
  split_ifs <;> simp [NoUnknown]

theorem noUnknown_preset (s : State) (a : Amount) (ws : List Rat) (norm : Bool) :
    NoUnknown (presetOperands s a ws norm) := noUnknown_bind (noUnknown_amount _ _) fun _ => noUnknown_ok _

theorem noUnknown_matrix (s : State) (norm : Bool) : NoUnknown (matrixOperands s norm) := by
  refine noUnknown_bind (noUnknown_checkParam _ _) fun _ => noUnknown_bind (noUnknown_amount _ _) fun _ =>
    noUnknown_bind (noUnknown_weights _ _ _ _ _) fun ws => ?_
  cases norm
  · exact noUnknown_ok _
  · exact noUnknown_bind (noUnknown_sum _ _) fun _ => noUnknown_ok _

theorem noUnknown_tint (s : State) : NoUnknown (tintOperands s) := by
  refine noUnknown_bind ?_ fun _ => noUnknown_bind (noUnknown_amount _ _) fun _ => noUnknown_ok _
  unfold tintColour
  split
  · exact noUnknown_ok _
  · simp [NoUnknown]

theorem pixelCommand_kind {α : Type} {s t : State} {ops : Except Stop α} {lane : α → Nat → Nat → Nat → Nat}
    (ho : NoUnknown ops) (hs : s.errCode = none) (h : pixelCommand s ops lane = .next t) :
    t.errCode ≠ some .unknownFilter := by
  unfold pixelCommand at h
  split at h
  · next e he =>
    unfold checkBuffer at he
    split_ifs at he <;> (cases he; cases h; simp)
  · split at h
    · next e =>
      cases e with
      | unwritten => cases h
      | raise k info =>
        cases h
        simp only [raiseError_errCode]
        rintro ⟨⟩
        exact ho _ rfl
    · split at h
      · next e he =>
        unfold checkInput at he
        split at he
        · cases he; cases h
        · cases he
      · cases h
        simp [hs]

/-- No command records UnknownFilter: only a word the decoder rejects does. -/
theorem exec_kind {i : Instr} {s t : State} (hs : s.errCode = none) (h : exec i s = .next t) :
    t.errCode ≠ some .unknownFilter := by
  cases i with
  | grey =>
    exact pixelCommand_kind (noUnknown_bind (noUnknown_amount _ _) fun _ =>
      noUnknown_bind (noUnknown_finite _ _) fun _ => noUnknown_ok _) hs h
  | sepia =>
    exact pixelCommand_kind (noUnknown_bind (noUnknown_amount _ _) fun _ =>
      noUnknown_bind (noUnknown_finite _ _) fun _ => noUnknown_ok _) hs h
  | tint => exact pixelCommand_kind (noUnknown_tint s) hs h
  | poster =>
    exact pixelCommand_kind (noUnknown_bind (noUnknown_checkParam _ _) fun _ =>
      noUnknown_bind (noUnknown_amount _ _) fun _ => noUnknown_ok _) hs h
  | mosaic =>
    exact pixelCommand_kind (noUnknown_bind (noUnknown_checkParam _ _) fun _ =>
      noUnknown_bind (noUnknown_amount _ _) fun _ => noUnknown_ok _) hs h
  | convBox => exact pixelCommand_kind (noUnknown_preset _ _ _ _) hs h
  | convEdges => exact pixelCommand_kind (noUnknown_preset _ _ _ _) hs h
  | convEmboss => exact pixelCommand_kind (noUnknown_preset _ _ _ _) hs h
  | convSharpen => exact pixelCommand_kind (noUnknown_preset _ _ _ _) hs h
  | convMatrix => exact pixelCommand_kind (noUnknown_matrix _ _) hs h
  | convMatrixN => exact pixelCommand_kind (noUnknown_matrix _ _) hs h
  | gblur =>
    exact pixelCommand_kind (noUnknown_bind (noUnknown_checkParam _ _) fun _ =>
      noUnknown_bind (noUnknown_weights _ _ _ _ _) fun _ =>
        noUnknown_bind (noUnknown_sum _ _) fun _ => noUnknown_ok _) hs h
  | defaults => cases h; simp [hs]

end Sys2Proof.Machine
end

