-- ==== Sys2Proof/Laws/PerInstr.lean ====
section
/-! SUPPORT. The per-instruction family Encoding: the word of each command has exactly the fields the opcode map gives it,
they are well-formed, and they cover the word (30_encoding.md R90, R93, R94). -/

namespace Sys2Proof.Laws.Encoding

/-- The word of a command carries the command's own fields, which are legal, and nothing else. -/
def Statement (i : Instr) : Prop :=
  CmdFields.ofWord (encode i) = i.fields ∧ i.wellFormed = true ∧
    (encode i).toNat = i.fields.op.toNat + 256 * i.fields.n.toNat

theorem grey : Statement .grey := ⟨by decide, by decide, by decide⟩
theorem sepia : Statement .sepia := ⟨by decide, by decide, by decide⟩
theorem tint : Statement .tint := ⟨by decide, by decide, by decide⟩
theorem poster : Statement .poster := ⟨by decide, by decide, by decide⟩
theorem mosaic : Statement .mosaic := ⟨by decide, by decide, by decide⟩
theorem convBox : Statement .convBox := ⟨by decide, by decide, by decide⟩
theorem convEdges : Statement .convEdges := ⟨by decide, by decide, by decide⟩
theorem convEmboss : Statement .convEmboss := ⟨by decide, by decide, by decide⟩
theorem convSharpen : Statement .convSharpen := ⟨by decide, by decide, by decide⟩
theorem convMatrix : Statement .convMatrix := ⟨by decide, by decide, by decide⟩
theorem convMatrixN : Statement .convMatrixN := ⟨by decide, by decide, by decide⟩
theorem gblur : Statement .gblur := ⟨by decide, by decide, by decide⟩
theorem defaults : Statement .defaults := ⟨by decide, by decide, by decide⟩

end Sys2Proof.Laws.Encoding
end

