-- ==== Sys2Proof/Laws/Registers.lean ====
section
/-! SUPPORT. Reading a register after writing one: the halves of 64-bit registers, the register vectors and the offsets of
the map (20_memory.md R65, R72). -/

namespace Sys2Proof.Machine

theorem getHalf_setHalf (hi : Bool) (b : F64) (v : Word) : getHalf hi (setHalf hi b v) = v := by
  apply BitVec.eq_of_getLsbD_eq
  intro i h
  cases hi
  · show (BitVec.extractLsb' 0 32 (getHalf true b ++ v)).getLsbD i = _
    rw [BitVec.getLsbD_extractLsb', BitVec.getLsbD_append]
    simp [h]
  · show (BitVec.extractLsb' 32 32 (v ++ getHalf false b)).getLsbD i = _
    rw [BitVec.getLsbD_extractLsb', BitVec.getLsbD_append]
    simp [h]

theorem getHalf_setHalf_other (hi : Bool) (b : F64) (v : Word) :
    getHalf (!hi) (setHalf hi b v) = getHalf (!hi) b := by
  apply BitVec.eq_of_getLsbD_eq
  intro i h
  cases hi
  · show (BitVec.extractLsb' 32 32 (getHalf true b ++ v)).getLsbD i = _
    rw [BitVec.getLsbD_extractLsb', BitVec.getLsbD_append]
    simp [h]
  · show (BitVec.extractLsb' 0 32 (v ++ getHalf false b)).getLsbD i = _
    rw [BitVec.getLsbD_extractLsb', BitVec.getLsbD_append]
    simp [h]

theorem getF64_setF64 (s : State) (r r' : F64Reg) (b : F64) :
    getF64 (setF64 s r b) r' = if r' = r then b else getF64 s r' := by
  cases r <;> cases r' <;> simp [getF64, setF64, Vector.getElem_set, Fin.ext_iff, eq_comm]

theorem getWord_setWord (s : State) (r r' : WordReg) (v : Word) :
    getWord (setWord s r v) r' = if r' = r then v else getWord s r' := by
  cases r <;> cases r' <;> simp [getWord, setWord]

theorem memory_setMemory (s : State) (sp sp' : Space) (m : Memory) :
    memory (setMemory s sp m) sp' = if sp' = sp then m else memory s sp' := by
  cases sp <;> cases sp' <;> rfl

theorem setMemory_era (s : State) (sp : Space) (m : Memory) : (setMemory s sp m).era = s.era := by
  cases sp <;> rfl

/-- The offset of the low half of a 64-bit register (10_state.md R25 to R27). -/
def f64Offset : F64Reg → Nat
  | .amount i => 0x080 + 8 * i.val
  | .lumCoef i => 0x100 + 8 * i.val
  | .sepCoef i => 0x120 + 8 * i.val

/-- The offset of a 32-bit register (10_state.md R22 to R24). -/
def wordOffset : WordReg → Nat
  | .width => 0x020
  | .height => 0x024
  | .dataLen => 0x028
  | .ksize => 0x02C
  | .glen => 0x030
  | .posterLevels => 0x034
  | .mosaicSize => 0x038
  | .tintHex0 => 0x040
  | .tintHex1 => 0x044

theorem lowRegLoc_word {off : Nat} (hlt : off < 0x080) (h4 : off % 4 = 0) :
    (∀ r, lowRegLoc off = .word r → off = wordOffset r) ∧ ∀ r hi, lowRegLoc off ≠ .half r hi := by
  obtain ⟨q, rfl⟩ : ∃ q, off = 4 * q := ⟨off / 4, by omega⟩
  have hq : q < 32 := by omega
  clear hlt h4
  interval_cases q <;> simp [lowRegLoc, wordOffset]

theorem regLoc_half {off : Nat} {r : F64Reg} {hi : Bool} (h : regLoc off = .half r hi) (h4 : off % 4 = 0) :
    off = f64Offset r + if hi then 4 else 0 := by
  unfold regLoc at h
  split_ifs at h with h1 h2 h3 h5 h6 h7
  · exact absurd h ((lowRegLoc_word h1 h4).2 r hi)
  all_goals
    injection h with ha hb
    subst ha hb
    simp only [decide_eq_true_eq, f64Offset]
    split_ifs <;> omega

theorem regLoc_word {off : Nat} {r : WordReg} (h : regLoc off = .word r) (h4 : off % 4 = 0) : off = wordOffset r := by
  rcases regLoc_cases off with ⟨hlt, e⟩ | ⟨_, hi, e, hoff⟩ | ⟨h1, h2, e⟩ | ⟨h1, h2, e⟩ | ⟨e, _⟩
  · rw [e] at h
    exact (lowRegLoc_word hlt h4).1 r h
  all_goals rw [e] at h; cases h

end Sys2Proof.Machine
end

