-- ==== Sys2Proof/Laws/Step.lean ====
section
/-! SUPPORT. What one step does with the schedule, and runs of several steps (log 1, 2). -/

namespace Sys2Proof.Machine

/-- No turn left: the engine's turn. -/
theorem step_nil {s : State} (h : s.turns = []) : step s = engineTurn s := by
  unfold step
  rw [h]

/-- The first turn is taken on the state with that turn off the schedule. -/
theorem step_cons {s : State} {t : Turn} {ts : List Turn} (h : s.turns = t :: ts) :
    step s = takeTurn t { s with turns := ts } := by
  unfold step
  rw [h]

theorem run_zero (s : State) : Host.Core.run core 0 s = .next s := rfl

theorem run_next {s t : State} (n : Nat) (h : step s = .next t) :
    Host.Core.run core (n + 1) s = Host.Core.run core n t := by
  have hc : core.step s = .next t := h
  simp only [Host.Core.run, hc]

/-- A run that answers a next state took a first step that did. -/
theorem run_cases {s t : State} {n : Nat} (h : Host.Core.run core (n + 1) s = .next t) :
    ∃ u, step s = .next u ∧ Host.Core.run core n u = .next t := by
  cases hs : step s with
  | next u => exact ⟨u, rfl, by rw [← run_next n hs, h]⟩
  | fault r =>
    have hc : core.step s = .fault r := hs
    simp only [Host.Core.run, hc] at h
    cases h
  | refused r =>
    have hc : core.step s = .refused r := hs
    simp only [Host.Core.run, hc] at h
    cases h

/-- An engine that is not active leaves the state. -/
theorem engineTurn_idle {s : State} (h : engineActive s = false) : engineTurn s = .next s := by
  rw [engineTurn, h]
  rfl

theorem engineTurn_active {s : State} (h : engineActive s = true) : engineTurn s = runCommand s := by
  rw [engineTurn, h]
  rfl

theorem runCommand_legal {s : State} {i : Instr} (h : decode s.cmd = .ok i) : runCommand s = exec i s := by
  unfold runCommand
  rw [h]

theorem runCommand_illegal {s : State} {r : Illegal} (h : decode s.cmd = .error r) :
    runCommand s = .next (raiseError .unknownFilter 0x01C s) := by
  unfold runCommand
  rw [h]

/-- What a command never touches, and that it always ends. -/
theorem runCommand_flags {s t : State} (h : runCommand s = .next t) :
    t.turns = s.turns ∧ t.rst = s.rst ∧ t.rdata = s.rdata ∧ t.irqEn = s.irqEn ∧ t.busy = false ∧
      (t.done = true ∨ t.err = true) := by
  unfold runCommand at h
  split at h
  · rcases exec_next_cases h with ⟨k, info, rfl⟩ | ⟨-, -, -, lane, rfl⟩ | ⟨-, rfl⟩ <;> simp
  · cases h
    simp

/-- No turn touches the rest of the schedule. -/
theorem takeTurn_turns {turn : Turn} {s t : State} (h : takeTurn turn s = .next t) : t.turns = s.turns := by
  cases turn with
  | engine =>
    simp only [takeTurn, engineTurn] at h
    split_ifs at h
    · exact (runCommand_flags h).1
    · cases h; rfl
  | read size off =>
    obtain ⟨r, a, d, e⟩ := busRead_frame s size off
    rw [takeTurn, e] at h
    cases h
    rfl
  | rst level =>
    simp only [takeTurn, driveRst] at h
    split_ifs at h <;> (cases h; rfl)
  | write size off v =>
    have e := busWrite_effect s size off v
    rw [takeTurn] at h
    injection h with h
    rw [h] at e
    cases e with
    | ctrl =>
      unfold writeCtrl
      split_ifs
      · unfold softReset
        split_ifs <;> rfl
      · rfl
    | status =>
      unfold writeStatus
      split_ifs <;> rfl
    | bytes sp => cases sp <;> rfl
    | _ => rfl

end Sys2Proof.Machine
end

