-- ==== Sys2Proof/Tests/Slice0.lean ====
section
/-! SUPPORT. Tests of the model against the spec's own words and vectors (30_encoding.md R93, 95_test_vectors.md), and one
witness per obligation that has hypotheses. -/

namespace Sys2Proof.Tests

-- One test at a time: many waiting for the kernel at once take a thread and its stack each, up to the memory limit.
set_option Elab.async false

open Sys2Proof.Machine Sys2Proof.Safety

/-! ### Well-formedness: one ill-formed term for each check -/

theorem test_wf_reserved_bit : CmdFields.wellFormed { op := 0x01, n := false, rsv := 1 } = false := by decide
theorem test_wf_unassigned_op : CmdFields.wellFormed { op := 0x00, n := false, rsv := 0 } = false := by decide
theorem test_wf_noise_op : CmdFields.wellFormed { op := 0x06, n := false, rsv := 0 } = false := by decide
theorem test_wf_stray_n : CmdFields.wellFormed { op := 0x01, n := true, rsv := 0 } = false := by decide
theorem test_wf_matrix_n : CmdFields.wellFormed { op := 0x14, n := true, rsv := 0 } = true := by decide

/-! ### Decoding: each word written bit by bit as RSV(23) N(1) OP(8) from 30_encoding.md R90 and R93 -/

theorem test_decode_grey : decode 0b00000000000000000000000_0_00000001 = .ok .grey := by decide
theorem test_decode_sepia : decode 0b00000000000000000000000_0_00000010 = .ok .sepia := by decide
theorem test_decode_tint : decode 0b00000000000000000000000_0_00000011 = .ok .tint := by decide
theorem test_decode_poster : decode 0b00000000000000000000000_0_00000100 = .ok .poster := by decide
theorem test_decode_mosaic : decode 0b00000000000000000000000_0_00000101 = .ok .mosaic := by decide
theorem test_decode_box : decode 0b00000000000000000000000_0_00010000 = .ok .convBox := by decide
theorem test_decode_edges : decode 0b00000000000000000000000_0_00010001 = .ok .convEdges := by decide
theorem test_decode_emboss : decode 0b00000000000000000000000_0_00010010 = .ok .convEmboss := by decide
theorem test_decode_sharpen : decode 0b00000000000000000000000_0_00010011 = .ok .convSharpen := by decide
theorem test_decode_matrix : decode 0b00000000000000000000000_0_00010100 = .ok .convMatrix := by decide
theorem test_decode_matrix_n : decode 0b00000000000000000000000_1_00010100 = .ok .convMatrixN := by decide
theorem test_decode_gblur : decode 0b00000000000000000000000_0_00011000 = .ok .gblur := by decide
theorem test_decode_defaults : decode 0b00000000000000000000000_0_00100000 = .ok .defaults := by decide
theorem test_decode_zero : decode 0b00000000000000000000000_0_00000000 = .error .unassignedOpcode := by decide
theorem test_decode_noise : decode 0b00000000000000000000000_0_00000110 = .error .noiseOpcode := by decide
theorem test_decode_stray_n : decode 0b00000000000000000000000_1_00100000 = .error .strayNormalize := by decide
theorem test_decode_bit_nine : decode 0b00000000000000000000001_0_00010100 = .error .reservedBits := by decide
theorem test_decode_top_bit : decode 0b10000000000000000000000_0_00000001 = .error .reservedBits := by decide
theorem test_table_word : decodeTableWord 32 0x114 = some .convMatrixN := by decide

/-! ### Small states -/

/-- Bytes from address `a` on. -/
def bytesFrom : Nat → List Nat → Memory
  | _, [] => []
  | a, b :: bs => (a, BitVec.ofNat 8 b) :: bytesFrom (a + 1) bs

/-- The 8 bytes of a pattern, little-endian. -/
def patternBytes (b : F64) : List Nat := (List.range 8).map fun j => (b.extractLsb' (8 * j) 8).toNat

/-- A weight memory with the given entries. -/
def weightMemory (ws : List F64) : Memory := bytesFrom 0 (ws.flatMap patternBytes)

/-- A running block with a `w` x `h` image in IN_MEM and reset parameters. -/
def block (w h : Nat) (pixels : List Nat) : State :=
  { State.reset with
    busy := true
    width := BitVec.ofNat 32 w
    height := BitVec.ofNat 32 h
    dataLen := BitVec.ofNat 32 (w * h * 4)
    inMem := bytesFrom 0 pixels }

/-- Image T of 95_test_vectors.md: a 3 x 3 grey image. -/
def imageT : State :=
  block 3 3 ([10, 20, 30, 40, 50, 60, 70, 80, 90].flatMap fun v => [v, v, v, 255])

/-- The binary64 patterns of small weights. -/
def one : F64 := 0x3FF0000000000000
def two : F64 := 0x4000000000000000
def minusOne : F64 := 0xBFF0000000000000
def notANumber : F64 := 0x7FF8000000000000

/-- Image T with nine kernel weights of 1 and one tap of 1: every command is ready on it. -/
def readyState : State :=
  { imageT with kw := weightMemory (List.replicate 9 one), gt := weightMemory [one] }

/-- `readyState` with other amounts. -/
def withAmounts (b : F64) (s : State) : State :=
  { s with params := { s.params with amounts := Vector.replicate 10 b } }

/-- The state a command leaves, if it goes on. -/
def nextOf : Host.Outcome State Fault Refusal → Option State
  | .next t => some t
  | _ => none

/-- The bytes of OUT_MEM in address order after a command. -/
def outBytes (o : Host.Outcome State Fault Refusal) : Option (List Nat) :=
  (nextOf o).map fun t => t.outMem.map fun c => c.2.toNat

/-- The red lane of OUT_MEM. -/
def redLane (o : Host.Outcome State Fault Refusal) : Option (List Nat) :=
  (nextOf o).map fun t => (t.outMem.filter fun c => c.1 % 4 = 0).map fun c => c.2.toNat

/-- STATUS and ERR_INFO after a command. -/
def report (o : Host.Outcome State Fault Refusal) : Option (Word × Word) :=
  (nextOf o).map fun t => (statusWord t, t.errInfo)

theorem next_of {o : Host.Outcome State Fault Refusal} (h : (nextOf o).isSome = true) : ∃ t, o = .next t := by
  cases o with
  | next t => exact ⟨t, rfl⟩
  | fault r => cases h
  | refused r => cases h

/-! ### Results, from 95_test_vectors.md -/

/-- L2.2: the luminance lies just below 116.5. -/
theorem test_grey : outBytes (exec .grey (block 1 1 [200, 100, 50, 7])) = some [116, 116, 116, 7] := by decide +kernel
/-- L2.2: extrapolation with amount 2. -/
theorem test_grey_amount_two :
    outBytes (exec .grey (withAmounts two (block 1 1 [200, 100, 50, 7]))) = some [33, 133, 183, 7] := by decide +kernel
/-- L1.10: the golden sepia buffer. -/
theorem test_sepia :
    outBytes (exec .sepia (block 2 2 [255, 0, 0, 255, 0, 255, 0, 255, 0, 0, 255, 255, 255, 255, 255, 255]))
      = some [100, 89, 69, 255, 196, 175, 136, 255, 48, 43, 33, 255, 255, 255, 239, 255] := by decide +kernel
/-- L2.4: reset colour and amount. -/
theorem test_tint : outBytes (exec .tint (block 2 1 [0, 0, 0, 1, 100, 100, 100, 1]))
    = some [76, 76, 76, 1, 146, 146, 146, 1] := by decide +kernel
/-- L2.4: parse vectors, two that differ only in form and one with a second '#'. -/
theorem test_tint_parse : parseTint 0x63626123 0x00000000 = some [170, 187, 204] ∧
    parseTint 0x64636261 0x78006665 = some [171, 205, 239] ∧ parseTint 0x66662323 0x00000066 = none := by decide
/-- L2.5: n = 5. -/
theorem test_poster : outBytes (exec .poster (block 1 1 [200, 100, 50, 9])) = some [191, 63, 0, 9] := by decide +kernel
/-- L2.6: the partial block at x = 2 is anchored at itself (k = 2). -/
theorem test_mosaic :
    outBytes (exec .mosaic
      { block 3 1 [10, 0, 0, 1, 20, 0, 0, 2, 30, 0, 0, 3] with params := { Params.reset with mosaicSize := 2 } })
      = some [10, 0, 0, 1, 10, 0, 0, 2, 30, 0, 0, 3] := by decide +kernel
/-- L2.7. -/
theorem test_box : redLane (exec .convBox imageT) = some [23, 30, 37, 43, 50, 57, 63, 70, 77] := by decide +kernel
/-- L2.7. -/
theorem test_edges : redLane (exec .convEdges imageT) = some [40, 30, 20, 10, 0, 0, 0, 0, 0] := by decide +kernel
/-- L2.7, reset amount 0.25. -/
theorem test_emboss : redLane (exec .convEmboss imageT) = some [40, 58, 60, 93, 110, 113, 100, 118, 120] := by
  decide +kernel
/-- L2.7, reset amount 0.25. -/
theorem test_sharpen : redLane (exec .convSharpen imageT) = some [0, 0, 15, 33, 50, 68, 85, 103, 120] := by
  decide +kernel
/-- L2.7: KW[5] = 1.0, the right neighbour: the kernel is not flipped. -/
theorem test_matrix :
    redLane (exec .convMatrix { imageT with kw := weightMemory [0, 0, 0, 0, 0, one, 0, 0, 0] })
      = some [20, 30, 30, 50, 60, 60, 80, 90, 90] := by decide +kernel
/-- L2.7: all weights 1.0, unnormalized. -/
theorem test_matrix_unnormalized :
    redLane (exec .convMatrix readyState) = some [210, 255, 255, 255, 255, 255, 255, 255, 255] := by decide +kernel
/-- L1.3. -/
theorem test_matrix_n :
    redLane (exec .convMatrixN { imageT with kw := weightMemory (List.replicate 9 two) })
      = some [23, 30, 37, 43, 50, 57, 63, 70, 77] := by decide +kernel
/-- L1.14: a zero sum is refused with normalization. -/
theorem test_matrix_n_zero_sum :
    report (exec .convMatrixN { imageT with kw := weightMemory [one, 0, 0, 0, minusOne, 0, 0, 0, 0] })
      = some (0x14, 0x400) := by decide +kernel
/-- L2.8. -/
theorem test_gblur :
    redLane (exec .gblur
      { imageT with gt := weightMemory [one, two, one], params := { Params.reset with glen := 3 } })
      = some [20, 28, 35, 43, 50, 58, 65, 73, 80] := by decide +kernel
/-- L2.8: an even tap count. -/
theorem test_gblur_even : report (exec .gblur { imageT with params := { Params.reset with glen := 2 } })
    = some (0x34, 0x030) := by decide +kernel
/-- L2.11. -/
theorem test_defaults :
    (nextOf (exec .defaults { block 3 3 [] with params := { Params.reset with posterLevels := 7 }, accErr := true })).map
      (fun t => (t.params.posterLevels, statusWord t)) = some (5, 0x202) := by decide

/-- L2.10: the order of checks: buffer before operands, and 2^33 compared exactly. -/
theorem test_check_order :
    report (exec .poster { block 3 3 [] with dataLen := 0, params := { Params.reset with posterLevels := 1 } })
      = some (0x14, 0x028) ∧
    report (exec .grey { block 3 3 [] with width := 0x80000000, height := 2, dataLen := 0 }) = some (0x14, 0x028) := by
  decide +kernel
/-- L2.10: an empty buffer still runs the operand checks. -/
theorem test_empty_buffer :
    report (exec .sepia { block 5 0 [] with outMem := [(0, 7)] }) = some (0x02, 0) ∧
    outBytes (exec .sepia { block 5 0 [] with outMem := [(0, 7)] }) = some [7] := by decide +kernel
/-- L2.1: values of patterns. -/
theorem test_f64_values : f64val 0x8000000000000000 = 0 ∧ f64val 0x3FE0000000000000 = 1 / 2 ∧
    f64val 0xC000000000000000 = -2 ∧ f64Finite 0xFFF0000000000000 = false := by decide +kernel
/-- L2.1: blends. -/
theorem test_blend : blend (1 / 2) 101 50 = 76 ∧ blend 2 200 100 = 255 ∧ blend (-1) 200 100 = 0 ∧
    blend 1 (509 / 2) 9 = 255 ∧ blend (f64val 0x3FD3333333333333) 255 0 = 76 := by decide +kernel
/-- L1.15 and L2.9: an unassigned word and the noise word report code 2 at 0x01C. -/
theorem test_unknown_filter : report (engineTurn (busWrite State.reset .b4 0x01C 0x07)) = some (0x24, 0x01C) ∧
    report (engineTurn (busWrite State.reset .b4 0x01C 0x06)) = some (0x24, 0x01C) := by decide
/-- L2.12: a half-word write merges little-endian, and a misaligned read sets ACC_ERR. -/
theorem test_bus :
    (busRead (busWrite { imageT with busy := false } .b2 0x100000 0xBBAA) .b4 0x100000).rdata = 0xFF0ABBAA ∧
    (busRead imageT .b2 0x100001).accErr = true ∧ (busRead imageT .b1 0x100004).rdata = 20 := by decide +kernel

/-! ### Witnesses: a concrete state and operands that meet the hypotheses of each obligation -/

theorem readyState_written : InputWritten readyState := by
  have h : ∀ a, a < 36 → (Memory.read readyState.inMem a).isSome = true := by decide +kernel
  exact fun a ha => h a ha

/-- Every pixel command is ready on one small state. -/
theorem witness_ready (i : Instr) : Ready i readyState := by
  refine ⟨by unfold BufferFits; decide, ?_, ?_, readyState_written⟩
  · cases i <;> decide +kernel
  · cases i
    case convMatrixN =>
      have h : (entryValues readyState.kw (ksizeOf readyState * ksizeOf readyState)).sum ≠ 0 := by decide +kernel
      exact h
    case gblur =>
      have h : (entryValues readyState.gt (glenOf readyState)).sum ≠ 0 := by decide +kernel
      exact h
    all_goals exact trivial

/-- ReadyPixelCommandCompletes at an empty buffer too. -/
theorem witness_ReadyPixelCommandCompletes :
    (Instr.grey ≠ .defaults ∧ Ready .grey readyState) ∧
      Ready .tint (block 5 0 []) ∧ bufW (block 5 0 []) * bufH (block 5 0 []) = 0 := by
  refine ⟨⟨by decide, witness_ready _⟩, ⟨by unfold BufferFits; decide, by decide +kernel, trivial, ?_⟩, by decide⟩
  intro a ha
  exact absurd ha (Nat.not_lt_zero a)

theorem witness_GreyBlendsTowardLuminance : Ready .grey readyState := witness_ready _
theorem witness_SepiaBlendsTowardTheMatrixRow : Ready .sepia readyState := witness_ready _
theorem witness_TintBlendsTowardTheParsedColour : Ready .tint readyState := witness_ready _
theorem witness_PosterBlendsTowardTheLevel : Ready .poster readyState := witness_ready _
theorem witness_MosaicBlendsTowardTheAnchor : Ready .mosaic readyState := witness_ready _
theorem witness_PresetsConvolveTheirKernels : Ready .convBox readyState ∧ Ready .convEdges readyState ∧
    Ready .convEmboss readyState ∧ Ready .convSharpen readyState :=
  ⟨witness_ready _, witness_ready _, witness_ready _, witness_ready _⟩
theorem witness_MatrixConvolvesTheKernelMemory : Ready .convMatrix readyState ∧ Ready .convMatrixN readyState :=
  ⟨witness_ready _, witness_ready _⟩
theorem witness_BlurRunsBothPasses : Ready .gblur readyState := witness_ready _

theorem witness_DecodeInvertsEncode : decode 0x00000114 = .ok .convMatrixN := by decide

theorem witness_StepRunsTheLatchedCommand :
    (∃ (s : State) (i : Instr), s.busy = true ∧ s.rst = false ∧ decode s.cmd = .ok i ∧ s.turns = []) ∧
    (∃ (s : State) (i : Instr), s.busy = true ∧ s.rst = false ∧ decode s.cmd = .ok i ∧ s.turns = [.engine]) ∧
    (∃ (s : State) (r : Illegal), s.busy = true ∧ s.rst = false ∧ decode s.cmd = .error r ∧ s.turns = []) ∧
    ∃ (s : State) (r : Illegal), s.busy = true ∧ s.rst = false ∧ decode s.cmd = .error r ∧ s.turns = [.engine] :=
  ⟨⟨{ readyState with cmd := 0x00000001 }, .grey, rfl, rfl, by decide, rfl⟩,
    ⟨{ readyState with cmd := 0x00000001, turns := [.engine] }, .grey, rfl, rfl, by decide, rfl⟩,
    ⟨{ readyState with cmd := 0x00000006 }, .noiseOpcode, rfl, rfl, by decide, rfl⟩,
    ⟨{ readyState with cmd := 0x00000006, turns := [.engine] }, .noiseOpcode, rfl, rfl, by decide, rfl⟩⟩

theorem witness_StepPerformsOneHostTurn :
    ({ readyState with turns := [poll] } : State).turns = .read .b4 0x014 :: [] ∧
    ({ readyState with turns := [.write .b1 0x100000 7] } : State).turns = .write .b1 0x100000 7 :: [] ∧
    ({ readyState with turns := [.rst true] } : State).turns = .rst true :: [] := ⟨rfl, rfl, rfl⟩

theorem witness_IdleBlockDoesNothing : State.reset.busy = false ∧ State.reset.turns = [] ∧
    ({ State.reset with turns := [.engine] } : State).turns = .engine :: [] := ⟨rfl, rfl, rfl⟩

/-- An idle block with one CMD write to come. -/
def aboutToStart (w : Word) : State := { readyState with busy := false, turns := [.write .b4 0x01C w] }

theorem witness_OnlyCmdWriteStartsACommand :
    ∃ t, step (aboutToStart 1) = .next t ∧ (aboutToStart 1).busy = false ∧ t.busy = true := ⟨_, rfl, rfl, by decide⟩

/-- The illegal words nearest to legal ones: OP 0x15, bit 9, N with GREY. -/
theorem witness_IllegalWordFailsAsUnknownFilter :
    State.reset.busy = false ∧ State.reset.rst = false ∧
    ¬ ((0x15 : Word).extractLsb' 9 23 = 0 ∧
      (0x15 : Word).extractLsb' 0 8 ∈
        ([0x01, 0x02, 0x03, 0x04, 0x05, 0x10, 0x11, 0x12, 0x13, 0x14, 0x18, 0x20] : List (BitVec 8)) ∧
      ((0x15 : Word).getLsbD 8 = true → (0x15 : Word).extractLsb' 0 8 = 0x14)) ∧
    ([0x201, 0x101, 0x120, 0x00, 0x06] : List Word).any legalWord = false :=
  ⟨rfl, rfl, by decide, by decide⟩

/-- Zero, the largest subnormal, the smallest and the largest normal exponent. -/
theorem witness_BinarySixtyFourValues :
    f64Exponent 0x000FFFFFFFFFFFFF = 0 ∧ f64Exponent 0x0010000000000000 = 1 ∧ f64Exponent 0x7FEFFFFFFFFFFFFF = 0x7FE ∧
      f64Exponent 0x7FF0000000000000 = 0x7FF := by decide

theorem witness_BlendCornerCases :
    (255 : Nat) ≤ 255 ∧ ((2 : Rat) * 0 + (1 - 2) * ((100 : Nat) : Rat) < 0) ∧
      (255 < (2 : Rat) * 255 + (1 - 2) * ((100 : Nat) : Rat)) ∧
      (254 : Nat) ≤ 254 ∧ (1 : Rat) * (509 / 2) + (1 - 1) * ((9 : Nat) : Rat) = ((254 : Nat) : Rat) + 1 / 2 := by
  decide +kernel

/-- One byte too few in DATA_LEN, and the smallest 1024-wide buffer that does not fit. -/
theorem witness_BufferCheckRaisesInvalidBuffer :
    (Instr.grey ≠ .defaults) ∧
    ({ imageT with dataLen := 35 } : State).width.toNat * 3 * 4 ≠ ({ imageT with dataLen := 35 } : State).dataLen.toNat ∧
    (block 1024 257 []).width.toNat * (block 1024 257 []).height.toNat * 4 = (block 1024 257 []).dataLen.toNat ∧
    0x100000 < (block 1024 257 []).width.toNat * (block 1024 257 []).height.toNat * 4 := by decide +kernel

/-- A bad register (POSTER_LEVELS = 1), a bad last KW entry and a bad last tap. -/
theorem witness_FirstBadOperandRaisesInvalidParameter :
    (BufferFits { imageT with params := { Params.reset with posterLevels := 1 } } ∧
      firstFailing (operandChecks { imageT with params := { Params.reset with posterLevels := 1 } } .poster) = some 0x034) ∧
    (firstFailing (operandChecks
      { imageT with kw := weightMemory (List.replicate 8 one ++ [notANumber]) } .convMatrix) = some 0x440 ∧
      ∀ j, j < 9 → entryWritten (weightMemory (List.replicate 8 one ++ [notANumber])) j = true) ∧
    (firstFailing (operandChecks { imageT with gt := weightMemory [notANumber] } .gblur) = some 0x800 ∧
      entryWritten (weightMemory [notANumber]) 0 = true) := by
  refine ⟨⟨by unfold BufferFits; decide, by decide +kernel⟩, ⟨by decide +kernel, by decide +kernel⟩,
    by decide +kernel, by decide +kernel⟩

theorem witness_ZeroSumRaisesInvalidBuffer :
    BufferFits imageT ∧
    (firstFailing (operandChecks { imageT with kw := weightMemory [one, 0, 0, 0, minusOne, 0, 0, 0, 0] } .convMatrixN)
        = none ∧
      (entryValues (weightMemory [one, 0, 0, 0, minusOne, 0, 0, 0, 0]) 9).sum = 0) ∧
    (firstFailing (operandChecks { imageT with gt := weightMemory [0] } .gblur) = none ∧
      (entryValues (weightMemory [0]) 1).sum = 0) ∧
    ∃ t, exec .convEdges readyState = .next t := by
  refine ⟨by unfold BufferFits; decide, ⟨by decide +kernel, by decide +kernel⟩, ⟨by decide +kernel, by decide +kernel⟩,
    next_of (by decide +kernel)⟩

/-- A command that completes and one that fails, both from a state with ERR = 0. -/
theorem witness_CommandEndsWholeOrNotAtAll :
    (∃ t, exec .grey readyState = .next t ∧ t.err = false) ∧
    (∃ t, exec .grey { readyState with dataLen := 0 } = .next t ∧ t.err = true) ∧ readyState.err = false := by
  have completes : ∃ t, exec .grey readyState = .next t := next_of (by decide +kernel)
  have quiet : ((nextOf (exec .grey readyState)).map fun t => t.err) = some false := by decide +kernel
  obtain ⟨t, h⟩ := completes
  rw [h] at quiet
  exact ⟨⟨t, h, by simpa [nextOf] using quiet⟩, ⟨_, rfl, rfl⟩, rfl⟩

theorem witness_SuccessWritesExactlyTheBuffer :
    Instr.grey ≠ .defaults ∧ readyState.err = false ∧ ∃ t, exec .grey readyState = .next t ∧ t.err = false :=
  ⟨by decide, rfl, witness_CommandEndsWholeOrNotAtAll.1⟩

theorem witness_AlphaPassesThrough :
    Instr.grey ≠ .defaults ∧ readyState.err = false ∧ (∃ t, exec .grey readyState = .next t ∧ t.err = false) ∧
      2 < bufW readyState ∧ 2 < bufH readyState :=
  ⟨by decide, rfl, witness_CommandEndsWholeOrNotAtAll.1, by decide, by decide⟩

/-- Image T without its last byte, without its last weight, without taps. -/
theorem witness_UnwrittenStorageStopsTheModel :
    (BufferFits (block 1 1 [1, 2, 3]) ∧ firstFailing (operandChecks (block 1 1 [1, 2, 3]) .grey) = none ∧
      SumNonzero (block 1 1 [1, 2, 3]) .grey ∧ 3 < bufBytes (block 1 1 [1, 2, 3]) ∧
      Memory.read (block 1 1 [1, 2, 3]).inMem 3 = none ∧
      ∀ b, b < 3 → (Memory.read (block 1 1 [1, 2, 3]).inMem b).isSome = true) ∧
    (firstFailing (operandChecks { imageT with kw := weightMemory (List.replicate 8 one) } .convMatrix)
        = some (0x400 + 8 * 8) ∧ entryWritten (weightMemory (List.replicate 8 one)) 8 = false) ∧
    (BufferFits imageT ∧ firstFailing (operandChecks imageT .gblur) = some (0x800 + 8 * 0) ∧
      entryWritten imageT.gt 0 = false) := by
  refine ⟨⟨by unfold BufferFits; decide, by decide +kernel, trivial, by decide, by decide, by decide⟩,
    ⟨by decide +kernel, by decide +kernel⟩, by unfold BufferFits; decide, by decide +kernel, by decide⟩

theorem witness_FailedCommandFailsAlikeAgain :
    readyState.err = false ∧ ∃ t, exec .grey { readyState with dataLen := 0 } = .next t ∧ t.err = true :=
  ⟨rfl, _, rfl, rfl⟩

/-- Two states that differ in OUT_MEM only. -/
theorem witness_OutcomeDependsOnlyOnOperands :
    readyState.err = false ∧ ({ readyState with outMem := [(0, 7)] } : State).inMem = readyState.inMem ∧
      ({ readyState with outMem := [(0, 7)] } : State).outMem ≠ readyState.outMem ∧
      ∃ t, exec .grey readyState = .next t := ⟨rfl, rfl, by decide, next_of (by decide +kernel)⟩

theorem witness_AmountZeroCopiesTheSource :
    amountUsed .convEdges = some .edges ∧ amountOf (withAmounts 0 readyState) .edges = 0 ∧
      Ready .convEdges (withAmounts 0 readyState) :=
  ⟨rfl, by decide +kernel, by unfold BufferFits; decide, by decide +kernel, trivial, readyState_written⟩

/-- The smallest and the largest level count of interest, at both ends of the channel range. -/
theorem witness_PosterizedValueIsExact : (255 ≤ 255 ∧ 2 ≤ 2 ∧ posterValue 127 2 = 0 ∧ posterValue 128 2 = 255) ∧
    posterValue 255 300 = 254 := by decide

/-- A block inside image T with k = 2, its own and a partial one. -/
theorem witness_MosaicBlocksAreUniform :
    Ready .mosaic { readyState with params := { Params.reset with mosaicSize := 2 } } ∧
      amountOf { readyState with params := { Params.reset with mosaicSize := 2 } } .mosaic = 1 ∧
      0 * 2 + 1 < bufW readyState ∧ 1 * 2 + 0 < bufW readyState ∧ (1 : Nat) < 2 :=
  ⟨⟨by unfold BufferFits; decide, by decide +kernel, trivial, readyState_written⟩, by decide +kernel, by decide, by decide,
    by decide⟩

/-- The ends of every range. -/
theorem witness_HexDigitValues :
    ([0x2F, 0x30, 0x39, 0x3A, 0x40, 0x41, 0x46, 0x47, 0x60, 0x61, 0x66, 0x67] : List Byte).map hexVal =
      [none, some 0, some 9, none, none, some 10, some 15, none, none, some 10, some 15, none] := by decide

/-- Six digits, three digits, and five. -/
theorem witness_TintStringLegality :
    (dropHash (untilNul (tintBytes 0x63626123 0x00000000))).map hexVal = [some 10, some 11, some 12] ∧
    (dropHash (untilNul (tintBytes 0x62616123 0x00636362))).map hexVal
      = [some 10, some 10, some 11, some 11, some 12, some 12] ∧
    (dropHash (untilNul (tintBytes 0x30464623 0x00003030))).length = 5 := by decide

theorem witness_ShortTintStringDoublesItsDigits :
    (0x61 : Byte) ≠ 0x00 ∧ (0x61 : Byte) ≠ 0x23 ∧ (0x62 : Byte) ≠ 0x00 ∧ (0x63 : Byte) ≠ 0x00 ∧
      parseTint (tintWord 0x61 0x62 0x63 0x00) 0 = some [170, 187, 204] := by decide

theorem witness_EffectiveWeightsAreNormalized : ([2, 2, 2] : List Rat).sum ≠ 0 := by decide +kernel

/-- Kernels of all ones and all twos, scale 2. -/
theorem witness_NormalizationIgnoresScale :
    (2 : Rat) ≠ 0 ∧ ([1, 1, 1] : List Rat).sum ≠ 0 ∧ Ready .convMatrixN readyState ∧
    Ready .convMatrixN { readyState with kw := weightMemory (List.replicate 9 two) } ∧
    entryValues (weightMemory (List.replicate 9 two)) (ksizeOf readyState * ksizeOf readyState)
      = (entryValues readyState.kw (ksizeOf readyState * ksizeOf readyState)).map (fun w => 2 * w) := by
  have hs : (entryValues (weightMemory (List.replicate 9 two)) 9).sum ≠ 0 := by decide +kernel
  exact ⟨by decide +kernel, by decide +kernel, witness_ready _,
    ⟨by unfold BufferFits; decide, by decide +kernel, hs, readyState_written⟩, by decide +kernel⟩

/-- Below, at both ends of, and above the range, and a range of one. -/
theorem witness_ClampedCoordinateIsTheNearest : (1 : Nat) ≤ 1 ∧ clampCoord 1 0 = 0 ∧ clampCoord 3 (-1) = 0 ∧
    clampCoord 3 2 = 2 ∧ clampCoord 3 3 = 2 := by decide

theorem witness_ConvolutionSumIsTheClampedCorrelation : 1 ≤ bufW (block 1 1 []) ∧ 1 ≤ bufH (block 1 1 []) := by decide

theorem witness_BlurEqualsTwoDimensionalConvolution : 3 % 2 = 1 ∧ ([1, 2, 1] : List Rat).length = 3 := by decide

/-- A 2 x 2 image. -/
def squareState : State :=
  { block 2 2 [1, 2, 3, 4, 5, 6, 7, 8, 9, 10, 11, 12, 13, 14, 15, 16] with gt := weightMemory [one] }

/-- Its transpose. -/
def transposedState : State :=
  { block 2 2 [1, 2, 3, 4, 9, 10, 11, 12, 5, 6, 7, 8, 13, 14, 15, 16] with gt := weightMemory [one] }

theorem squareState_ready : Ready .gblur squareState ∧ Ready .gblur transposedState := by
  have h : ∀ a, a < 16 → (Memory.read squareState.inMem a).isSome = true ∧
      (Memory.read transposedState.inMem a).isSome = true := by decide +kernel
  have hs : (entryValues (weightMemory [one]) 1).sum ≠ 0 := by decide +kernel
  exact ⟨⟨by unfold BufferFits; decide, by decide +kernel, hs, fun a ha => (h a ha).1⟩,
    ⟨by unfold BufferFits; decide, by decide +kernel, hs, fun a ha => (h a ha).2⟩⟩

/-- A 2 x 2 image and its transpose, both ready, for the lanes and for the two commands. -/
theorem witness_BlurCommutesWithTransposition :
    bufW squareState = bufH squareState ∧ bufW transposedState = bufW squareState ∧
      bufH transposedState = bufH squareState ∧
      (∀ x y c, x < bufW squareState → y < bufW squareState → c < 4 →
        inCh transposedState x y c = inCh squareState y x c) ∧
      Ready .gblur squareState ∧ Ready .gblur transposedState ∧ transposedState.width = squareState.width ∧
      transposedState.height = squareState.height ∧ transposedState.params.glen = squareState.params.glen ∧
      transposedState.gt = squareState.gt ∧
      ∀ x y c, x < bufW squareState → y < bufW squareState → c < 4 →
        Memory.read transposedState.inMem (pixelOffset (bufW squareState) x y c)
          = Memory.read squareState.inMem (pixelOffset (bufW squareState) y x c) := by
  have h : ∀ x, x < 2 → ∀ y, y < 2 → ∀ c, c < 4 → inCh transposedState x y c = inCh squareState y x c ∧
      Memory.read transposedState.inMem (pixelOffset 2 x y c) = Memory.read squareState.inMem (pixelOffset 2 y x c) := by
    decide +kernel
  exact ⟨by decide, by decide, by decide, fun x y c hx hy hc => (h x hx y hy c hc).1, squareState_ready.1,
    squareState_ready.2, rfl, rfl, rfl, rfl, fun x y c hx hy hc => (h x hx y hy c hc).2⟩

theorem witness_CmdWriteStartsACommand : readyState.rst = false ∧ readyState.busy = true ∧ State.reset.busy = false :=
  ⟨rfl, rfl, rfl⟩

/-- The offsets where the clauses meet: each data range at both ends, the pixel windows, and the read-only, reserved and
control offsets beside them. -/
theorem witness_WritesWhileBusyAreDropped :
    readyState.rst = false ∧ readyState.busy = true ∧
    ([0x010, 0x014, 0x01C, 0x100000, 0x2FFFFC] : List (BitVec 22)).all (supported .b4) = true ∧
    supported .b1 0x2FFFFF = true ∧
    [0x020, 0x038, 0x040, 0x044, 0x080, 0x0CC, 0x100, 0x114, 0x120, 0x164, 0x400, 0x684, 0x800, 0xFF4].all dataRegister
      = true ∧
    [0x000, 0x018, 0x01C, 0x03C, 0x048, 0x07C, 0x0D0, 0x0FC, 0x118, 0x11C, 0x168, 0x3FC, 0x688, 0x7FC, 0xFF8,
      0xFFFFC].any dataRegister = false := by decide

/-- Misaligned, too narrow in register space, and above both windows. The pixel windows hold exactly MEM_BYTES bytes
each on this hardware, so no offset lies in a window and above its memory. -/
theorem witness_UnsupportedAccessOnlySetsAccErr :
    State.reset.rst = false ∧ (0x100001 : BitVec 22).toNat % sizeBytes .b2 ≠ 0 ∧
    (sizeBytes .b2 < 4 ∧ (0x0FFFFE : BitVec 22).toNat < 0x100000) ∧ 0x300000 ≤ (0x300000 : BitVec 22).toNat := by
  decide

/-- A state with a command running, the first and the last word of KW and GT, a written byte of KW and the last entry of
each; and two halves of one register. -/
theorem witness_DataRegistersReadBack :
    (readyState.rst = false ∧
      ([0x400, 0x684] : List (BitVec 22)).all
        (fun off => 0x400 ≤ off.toNat ∧ off.toNat < 0x400 + 8 * 81 ∧ off.toNat % 4 = 0) = true ∧
      ([0x800, 0xFF4] : List (BitVec 22)).all
        (fun off => 0x800 ≤ off.toNat ∧ off.toNat < 0x800 + 8 * 255 ∧ off.toNat % 4 = 0) = true ∧
      (Memory.read readyState.kw (0 + 3)).isSome = true ∧ 80 < 81 ∧ 254 < 255) ∧
    State.reset.rst = false ∧ State.reset.busy = false ∧ dataRegister (0x0CC : BitVec 22).toNat = true ∧
      (0x0C8 : BitVec 22) ≠ 0x0CC ∧ (0x0C8 : BitVec 22).toNat < 0x100000 := by decide +kernel

/-- The first and the last address of each window. -/
theorem witness_PixelWindowsAreLittleEndian :
    State.reset.rst = false ∧ State.reset.busy = false ∧
    (0x1FFFFF : BitVec 22).toNat % sizeBytes .b1 = 0 ∧ (0x200000 : BitVec 22).toNat % sizeBytes .b2 = 0 ∧
    (0x2FFFFC : BitVec 22).toNat % sizeBytes .b4 = 0 ∧ 0x100000 ≤ (0x100000 : BitVec 22).toNat ∧
    (0x2FFFFC : BitVec 22).toNat < 0x300000 ∧
    Memory.read (memory { readyState with busy := false } .inMem) (0 + 1) = some 10 := by decide

/-- Idle and busy, below and at the OUT_MEM window. -/
theorem witness_ReadsHaveNoSideEffects :
    (State.reset.rst = false ∧ supported .b4 0x2FFFFC = true ∧ State.reset.busy = false) ∧
    (readyState.rst = false ∧ supported .b1 0x1FFFFF = true ∧ (0x1FFFFF : BitVec 22).toNat < 0x200000) ∧
    (readyState.busy = true ∧ supported .b1 0x200000 = true ∧ 0x200000 ≤ (0x200000 : BitVec 22).toNat) ∧
    (supported .b4 0x018 = true ∧ (0x018 : BitVec 22) ≠ 0x014 ∧ (0x100000 : BitVec 22).toNat < 0x200000 ∧
      1 < sizeBytes .b2) := by decide

/-- Out of reset, every error code, and a CTRL write without SRST. -/
theorem witness_StatusFieldsAndWriteOneToClear :
    readyState.rst = false ∧ State.reset.errCode = none ∧ (failed .invalidBuffer 0x028 readyState).errCode = some .invalidBuffer ∧
    (failed .unknownFilter 0x01C readyState).errCode = some .unknownFilter ∧
    (failed .invalidParameter 0x080 readyState).errCode = some .invalidParameter ∧
    (0xFFFFFFFD : Word).getLsbD 1 = false := ⟨rfl, rfl, rfl, rfl, rfl, by decide⟩

theorem witness_IrqFollowsTheCompletionFlags :
    (({ readyState with irqEn := true } : State).rst = false ∧
      ∃ t, exec .grey { readyState with irqEn := true } = .next t) ∧
    ((1 : Word).getLsbD 1 = false ∧ (1 : Word).getLsbD 0 = true ∧ ({ State.reset with done := true } : State).done = true) ∧
    ((6 : Word).getLsbD 1 = true ∧ (6 : Word).getLsbD 2 = true) ∧ State.reset.busy = false ∧
    (0 : Word).getLsbD 0 = false ∧ (2 : Word).getLsbD 1 = true :=
  ⟨⟨rfl, next_of (by decide +kernel)⟩, ⟨by decide, by decide, rfl⟩, ⟨by decide, by decide⟩, rfl, by decide, by decide⟩

/-- Idle and with a command running, at the first byte kept. -/
theorem witness_SoftResetRestoresTheRegisters :
    readyState.rst = false ∧ (3 : Word).getLsbD 1 = true ∧ readyState.busy = true ∧ State.reset.busy = false ∧
      bufW readyState * bufH readyState * 4 ≤ 36 := by decide

theorem witness_HardResetHoldsAndClears :
    ({ State.reset with rst := true, turns := [.engine] } : State).rst = true ∧
      ({ State.reset with rst := true, turns := [.engine] } : State).turns = .engine :: [] := ⟨rfl, rfl⟩

/-- A state with a recorded error meets the invariant and steps. -/
theorem witness_StepKeepsTheInvariant :
    Invariant { State.reset with
      cmd := 0x15, err := true, errCode := some .unknownFilter, errInfo := 0x01C, turns := [.write .b4 0x014 4] } ∧
    ∃ t, step { State.reset with
      cmd := 0x15, err := true, errCode := some .unknownFilter, errInfo := 0x01C, turns := [.write .b4 0x014 4] }
        = .next t := by
  refine ⟨?_, _, rfl⟩
  constructor <;> decide

theorem witness_RunningCommandKeepsItsOperands :
    readyState.busy = true ∧ Turn.write .b4 0x020 7 ≠ .engine ∧ resetsBlock readyState (.write .b4 0x020 7) = false ∧
      ∃ t, takeTurn (.write .b4 0x020 7) readyState = .next t := ⟨rfl, by decide, by decide, _, rfl⟩

theorem witness_PollsDoNotChangeTheOutcome :
    ∃ t, ({ readyState with cmd := 0x20 } : State).busy = true ∧ ({ readyState with cmd := 0x20 } : State).rst = false ∧
      ({ readyState with cmd := 0x20 } : State).turns = [] ∧ step { readyState with cmd := 0x20 } = .next t :=
  ⟨_, rfl, rfl, rfl, rfl⟩

/-- Both ends of every reserved range. -/
theorem witness_ReadOnlyAndReservedRegisters :
    readyState.rst = false ∧
    ([0x03C, 0x048, 0x07C, 0x0D0, 0x0FC, 0x118, 0x11C, 0x168, 0x3FC, 0x688, 0x7FC, 0xFF8, 0xFFC, 0x1000, 0xFFFFC] :
      List (BitVec 22)).all (fun off => off.toNat % 4 = 0 ∧ regLoc off.toNat = .reserved) = true := by decide

/-- A CTRL write with SRST = 1 to a running block, and OUT_MEM of an idle one. -/
theorem witness_SoftResetKeepsWhatTheHostReads :
    readyState.rst = false ∧ (2 : Word).getLsbD 1 = true ∧ Space.kw ≠ .outMem ∧ State.reset.busy = false := by decide

/-- A schedule that starts a DEFAULTS command from reset. -/
theorem witness_EveryStartedCommandEnds :
    ∃ t, Invariant { State.reset with turns := [.write .b4 0x01C 0x20] } ∧
      Host.Core.run core 2 { State.reset with turns := [.write .b4 0x01C 0x20] } = .next t := by
  refine ⟨_, ?_, rfl⟩
  constructor <;> decide

end Sys2Proof.Tests
end

/-! PROOF. The outcome of a command depends only on its operands (10_state.md R44): every way a command can end,
taken from two states that agree on what the command reads. -/

namespace Sys2Proof.Machine

theorem bufBytes_agree {s s' : State} (a : Agree s s') : bufBytes s' = bufBytes s := by
  simp only [bufBytes, bufW, bufH, a.width, a.height]

/-- The same lanes leave the same output bytes, whatever OUT_MEM held. -/
theorem read_writeOutput_agree {s s' : State} (a : Agree s s') (lane : Nat → Nat → Nat → Nat) {b : Nat}
    (hb : b < bufBytes s) :
    Memory.read (writeOutput s' lane).outMem b = Memory.read (writeOutput s lane).outMem b := by
  rw [writeOutput_outMem, writeOutput_outMem, bufBytes_agree a, outByte_agree a, read_overwrite, read_overwrite,
    if_pos hb, if_pos hb]

/-- A check stops a command with a next state only by an error record. -/
theorem stopCommand_next {e : Stop} {s t : State} (h : stopCommand e s = .next t) :
    ∃ k info, e = .raise k info ∧ t = raiseError k info s := by
  cases e with
  | raise k info => exact ⟨k, info, rfl, by simpa [stopCommand] using h.symm⟩
  | unwritten sp a => simp [stopCommand] at h

/-- Settles O29, by the three ways a command that ends can end from two agreeing states: an error record, a whole
output, or the defaults. -/
theorem outcomeDependsOnlyOnOperands : Obligations.OutcomeDependsOnlyOnOperands := by
  unfold Obligations.OutcomeDependsOnlyOnOperands
  intro i s s' t hw hh hl hp hk hg hin herr herr' ht
  have a : Agree s s' := ⟨hw, hh, hl, hp, hk, hg, hin⟩
  rcases sameEnd_of_agree a i with ⟨e, he, he'⟩ | ⟨-, lane, hc, hc'⟩ | rfl
  · obtain ⟨k, info, rfl, rfl⟩ := stopCommand_next (he.symm.trans ht)
    exact ⟨raiseError k info s', he', by simp [hp]⟩
  · rw [hc] at ht
    cases ht
    exact ⟨completeCommand (writeOutput s' lane), hc', hp, by simp [herr, herr'], rfl, by simp [herr],
      fun _ => ⟨rfl, fun _ _ hb => read_writeOutput_agree a lane hb⟩⟩
  · cases ht
    exact ⟨completeCommand { s' with params := Params.reset }, rfl, by simp [herr, herr']⟩

end Sys2Proof.Machine

/-! PROOF. Read-only and reserved registers (10_state.md R28 to R31, R34, R36): what stands at their offsets, and what a
4-byte access to it does. -/

namespace Sys2Proof.Machine

/-! ### What stands at the offsets -/

theorem target_id : target .b4 0x000 = .reg .id := by decide
theorem target_version : target .b4 0x004 = .reg .version := by decide
theorem target_cap0 : target .b4 0x008 = .reg .cap0 := by decide
theorem target_capMemBytes : target .b4 0x00C = .reg .capMemBytes := by decide
theorem target_errInfo : target .b4 0x018 = .reg .errInfo := by decide

/-- An aligned 4-byte access below the pixel windows reaches the register map. -/
theorem target_b4_reg {off : BitVec 22} (h4 : off.toNat % 4 = 0) (hlt : off.toNat < 0x100000) :
    target .b4 off = .reg (regLoc off.toNat) :=
  (target_reg ((supported_iff .b4 off).2 ⟨h4, .inl ⟨hlt, rfl⟩⟩) hlt).2.2

/-- The reserved offsets among the 32-bit registers. -/
theorem lowRegLoc_reserved {off : Nat} (h : off = 0x03C ∨ 0x048 ≤ off) : lowRegLoc off = .reserved := by
  unfold lowRegLoc
  split
  rotate_right
  · rfl
  all_goals omega

/-- The reserved offsets of the whole register space: outside every range the map assigns. -/
theorem regLoc_reserved {off : Nat} (hlow : off < 0x080 → off = 0x03C ∨ 0x048 ≤ off)
    (hhalf : ¬ ((0x080 ≤ off ∧ off < 0x0D0) ∨ (0x100 ≤ off ∧ off < 0x118) ∨ (0x120 ≤ off ∧ off < 0x168)))
    (hkw : ¬ (0x400 ≤ off ∧ off < 0x688)) (hgt : ¬ (0x800 ≤ off ∧ off < 0xFF8)) : regLoc off = .reserved := by
  rcases regLoc_cases off with ⟨hlt, h⟩ | ⟨r, hi, -, hoff⟩ | ⟨h1, h2, -⟩ | ⟨h1, h2, -⟩ | ⟨h, -⟩
  · rw [h, lowRegLoc_reserved (hlow hlt)]
  · exact absurd hoff hhalf
  · exact absurd ⟨h1, h2⟩ hkw
  · exact absurd ⟨h1, h2⟩ hgt
  · exact h

/-! ### Accesses -/

theorem busRead_reg_rdata {s : State} {size : Size} {off : BitVec 22} {loc : RegLoc} (hr : s.rst = false)
    (ht : target size off = .reg loc) : (busRead s size off).rdata = readReg s loc := by
  rw [busRead_reg hr ht]

theorem busWrite_readOnly {s : State} {size : Size} {off : BitVec 22} {loc : RegLoc} (hr : s.rst = false)
    (ht : target size off = .reg loc) (hro : loc.isReadOnly = true) (v : Word) : busWrite s size off v = s := by
  rw [busWrite_reg hr ht, writeReg_readOnly hro]

/-- Settles O59, by the register map: each offset holds a read-only location, whose value is fixed and whose writes are
ignored. -/
theorem readOnlyAndReservedRegisters : Obligations.ReadOnlyAndReservedRegisters := by
  unfold Obligations.ReadOnlyAndReservedRegisters
  intro s hr
  refine ⟨⟨?_, ?_, ?_, ?_⟩, fun v => ⟨?_, ?_, ?_, ?_, ?_⟩, fun off h4 hoff => ?_⟩
  · exact busRead_reg_rdata hr target_id
  · exact busRead_reg_rdata hr target_version
  · exact busRead_reg_rdata hr target_cap0
  · exact busRead_reg_rdata hr target_capMemBytes
  · exact busWrite_readOnly hr target_id rfl v
  · exact busWrite_readOnly hr target_version rfl v
  · exact busWrite_readOnly hr target_cap0 rfl v
  · exact busWrite_readOnly hr target_capMemBytes rfl v
  · exact busWrite_readOnly hr target_errInfo rfl v
  · have hloc : regLoc off.toNat = .reserved := regLoc_reserved (by omega) (by omega) (by omega) (by omega)
    have ht : target .b4 off = .reg .reserved := by rw [target_b4_reg h4 (by omega), hloc]
    exact ⟨busRead_reg_rdata hr ht, busWrite_readOnly hr ht rfl⟩

end Sys2Proof.Machine

/-! PROOF. Bus transactions the memory map does not support, and the bytes of the pixel windows (20_memory.md R61, R63,
R64). -/

namespace Sys2Proof.Machine

open Sys2Proof.Safety

/-! ### Unsupported accesses -/

/-- The window clauses of 20_memory.md R63 name no further offset: on this hardware each window is one memory long. -/
theorem supported_eq_false {size : Size} {off : BitVec 22}
    (h : off.toNat % sizeBytes size ≠ 0 ∨ (sizeBytes size < 4 ∧ off.toNat < 0x100000) ∨ 0x300000 ≤ off.toNat ∨
      (0x100000 ≤ off.toNat ∧ off.toNat < 0x200000 ∧ Config.memBytes ≤ off.toNat - 0x100000) ∨
      (0x200000 ≤ off.toNat ∧ off.toNat < 0x300000 ∧ Config.memBytes ≤ off.toNat - 0x200000)) :
    supported size off = false := by
  have hm : Config.memBytes = 0x100000 := rfl
  rw [← Bool.not_eq_true, supported_iff]
  rintro ⟨halign, ⟨hreg, rfl⟩ | hwindow⟩
  · have h4 : sizeBytes .b4 = 4 := rfl
    omega
  · omega

/-- Settles O45: every such access is one the map does not support, whose target is `unsupported`. -/
theorem unsupportedAccessOnlySetsAccErr : Obligations.UnsupportedAccessOnlySetsAccErr := by
  unfold Obligations.UnsupportedAccessOnlySetsAccErr
  intro s size off v hr h
  have ht := target_unsupported (supported_eq_false h)
  exact ⟨busWrite_unsupported hr ht v, busRead_unsupported hr ht⟩

/-! ### The pixel windows -/

/-- An aligned access in a window reaches that window's memory at the window offset. -/
theorem target_window {size : Size} {off : BitVec 22} (h1 : off.toNat % sizeBytes size = 0)
    (hge : 0x100000 ≤ off.toNat) (hlt : off.toNat < 0x300000) :
    target size off = .pixel (windowSpace off) (off.toNat % 0x100000) :=
  (target_pixel ((supported_iff size off).2 ⟨h1, .inr ⟨hge, hlt⟩⟩) hge).1

theorem readPixels_idle {s : State} (hb : s.busy = false) (sp : Space) (a n : Nat) :
    readPixels s sp a n = { s with rdata := BitVec.ofNat 32 (loadLE (hostByte s sp) a n) } := by
  rw [readPixels, if_neg (by simp [hb])]

theorem hostByte_written {s : State} {sp : Space} {a : Nat} {b : Byte} (h : Memory.read (memory s sp) a = some b) :
    hostByte s sp a = b := by
  rw [hostByte, h, Option.getD_some]

/-- A store of a bus word puts the word's bytes, lowest first, from `a` on. -/
theorem read_storeLE_word (m : Memory) (a n : Nat) (v : Word) (b : Nat) :
    Memory.read (storeLE m a n v.toNat) b =
      if a ≤ b ∧ b < a + n then some (v.extractLsb' (8 * (b - a)) 8) else Memory.read m b := by
  rw [read_storeLE, byte_of_word]

/-- Settles O47, from the little-endian store and load of a bus word at the window offset. -/
theorem pixelWindowsAreLittleEndian : Obligations.PixelWindowsAreLittleEndian := by
  unfold Obligations.PixelWindowsAreLittleEndian
  intro s size off v hr hb halign hge hlt sp a
  have ht : target size off = .pixel sp a := target_window halign hge hlt
  refine ⟨⟨storeLE (memory s sp) a (sizeBytes size) v.toNat, ?_, read_storeLE_word _ a _ v⟩,
    BitVec.ofNat 32 (loadLE (hostByte s sp) a (sizeBytes size)), ?_, fun k b hk hread => ?_, ?_⟩
  · rw [busWrite_pixel hr ht, whenIdle_idle hb]
  · rw [busRead_pixel hr ht, readPixels_idle hb]
  · rw [ofNat_loadLE_byte (sizeBytes_le size).2 _ _ _ hk, hostByte_written hread]
  · exact ofNat_loadLE_high (hostByte s sp) a

end Sys2Proof.Machine

/-! PROOF. The decoder accepts exactly the words whose fields are well-formed (30_encoding.md R94). -/

namespace Sys2Proof

/-! ### Well-formed fields -/

theorem CmdFields.wellFormed_iff (f : CmdFields) :
    f.wellFormed = true ↔ f.rsv = 0 ∧ f.op ∈ CmdFields.assignedOps ∧ (f.n = true → f.op = 0x14) := by
  simp [CmdFields.wellFormed, CmdFields.rsvZero, CmdFields.opAssigned, CmdFields.normalizeAllowed, and_assoc,
    imp_iff_not_or]

theorem Instr.wellFormed_true (i : Instr) : i.wellFormed = true := by
  cases i <;> decide

theorem Instr.fields_rsv (i : Instr) : i.fields.rsv = 0 := by
  cases i <;> rfl

/-- The opcode map has a command for every assigned opcode. -/
theorem exists_opcodeMap_eq_some {op : BitVec 8} (h : op ∈ CmdFields.assignedOps) : ∃ i, opcodeMap op = some i := by
  have hall : ∀ op ∈ CmdFields.assignedOps, (opcodeMap op).isSome = true := by decide
  exact Option.isSome_iff_exists.1 (hall op h)

/-! ### The decoder -/

/-- The fields of an accepted word are the command's, taken together. -/
theorem ofWord_of_decode {w : Word} {i : Instr} (h : decode w = .ok i) : CmdFields.ofWord w = i.fields := by
  obtain ⟨hrsv, hn, hop⟩ := decode_fields h
  change CmdFields.mk (opField w) (nField w) (rsvField w) = i.fields
  rw [hop, hn, hrsv, ← i.fields_rsv]

theorem decode_normalize {w : Word} (hrsv : rsvField w = 0) (hn : nField w = true) (hop : opField w = 0x14) :
    decode w = .ok .convMatrixN := by
  rw [decode, if_neg (not_not_intro hrsv), if_pos hn, if_pos hop]

theorem decode_opcodeMap {w : Word} {i : Instr} (hrsv : rsvField w = 0) (hn : nField w = false)
    (hop : opcodeMap (opField w) = some i) : decode w = .ok i := by
  rw [decode, if_neg (not_not_intro hrsv), if_neg (by simp [hn]), hop]

/-- The decoder and the check of the fields, which is written apart from it, accept the same words. -/
theorem decode_ok_iff_wellFormed (w : Word) :
    (∃ i, decode w = .ok i) ↔ (CmdFields.ofWord w).wellFormed = true := by
  constructor
  · rintro ⟨i, h⟩
    rw [ofWord_of_decode h]
    exact i.wellFormed_true
  · rw [CmdFields.wellFormed_iff]
    rintro ⟨hrsv, hop, hn14⟩
    cases hn : nField w with
    | true => exact ⟨.convMatrixN, decode_normalize hrsv hn (hn14 hn)⟩
    | false =>
      obtain ⟨i, hi⟩ := exists_opcodeMap_eq_some hop
      exact ⟨i, decode_opcodeMap hrsv hn hi⟩

/-- Every word is accepted or rejected, and none is both. -/
theorem decode_error_iff (w : Word) : (∃ r, decode w = .error r) ↔ ¬ ∃ i, decode w = .ok i := by
  cases decode w <;> simp

/-- Settles O3: the statement's three conditions are the well-formedness of the word's fields. -/
theorem legalWordsByFields : Obligations.LegalWordsByFields := by
  unfold Obligations.LegalWordsByFields
  exact fun w => ⟨(decode_ok_iff_wellFormed w).trans (CmdFields.wellFormed_iff _), decode_error_iff w⟩

end Sys2Proof

/-! PROOF. The blender: the clamped mix, rounded half up (40_blender.md R113 to R116). -/

namespace Sys2Proof.Machine

/-! ### The clamp -/

theorem clampQ_mem {v lo hi : Rat} (h1 : lo ≤ v) (h2 : v ≤ hi) : clampQ v lo hi = v := by
  rw [clampQ, max_eq_left h1, min_eq_left h2]

theorem clampQ_below {v lo hi : Rat} (h : v ≤ lo) (hle : lo ≤ hi) : clampQ v lo hi = lo := by
  rw [clampQ, max_eq_right h, min_eq_left hle]

theorem clampQ_above {v lo hi : Rat} (h : hi ≤ v) : clampQ v lo hi = hi := by
  rw [clampQ, min_eq_right (le_max_of_le_left h)]

theorem le_clampQ {lo hi : Rat} (hle : lo ≤ hi) (v : Rat) : lo ≤ clampQ v lo hi :=
  le_min (le_max_right v lo) hle

/-! ### Rounding half up -/

theorem roundhu_eq_floor (v : Rat) : roundhu v = ⌊v + 1 / 2⌋ := rfl

theorem roundhu_nonneg {v : Rat} (h : 0 ≤ v) : 0 ≤ roundhu v := by
  rw [roundhu_eq_floor]
  exact Int.floor_nonneg.2 (by linarith)

theorem roundhu_natCast (n : Nat) : roundhu (n : Rat) = (n : Int) := by
  rw [roundhu_eq_floor, Int.floor_natCast_add]
  norm_num

/-- An exact half goes up. -/
theorem roundhu_natCast_add_half (n : Nat) : roundhu ((n : Rat) + 1 / 2) = ((n + 1 : Nat) : Int) := by
  rw [roundhu_eq_floor, add_assoc, add_halves, ← Nat.cast_add_one, Int.floor_natCast]

/-! ### The blend -/

/-- The clamp leaves nothing negative to round, so taking the result as a natural number loses nothing. -/
theorem coe_blend (a c : Rat) (o : Nat) :
    ((blend a c o : Nat) : Int) = roundhu (clampQ (a * c + (1 - a) * (o : Rat)) 0 255) := by
  rw [blend, Int.toNat_of_nonneg (roundhu_nonneg (le_clampQ (by norm_num) _))]

/-- Settles O10, from the blend as an integer and its bound. -/
theorem blendIsTheRoundedClampedMix : Obligations.BlendIsTheRoundedClampedMix := by
  unfold Obligations.BlendIsTheRoundedClampedMix
  intro a c o
  refine ⟨?_, blend_le a c o⟩
  rw [coe_blend, roundhu_eq_floor, clampQ]

/-- A blend is the rounding of what its mix clamps to. -/
theorem blend_eq_of_clampQ {a c v : Rat} {o n : Nat} (hv : clampQ (a * c + (1 - a) * (o : Rat)) 0 255 = v)
    (hn : roundhu v = (n : Int)) : blend a c o = n := by
  have h : ((blend a c o : Nat) : Int) = (n : Int) := by rw [coe_blend, hv, hn]
  exact Int.natCast_inj.1 h

theorem blend_of_mix_eq_byte {a c : Rat} {o n : Nat} (hn : n ≤ 255) (h : a * c + (1 - a) * (o : Rat) = (n : Rat)) :
    blend a c o = n := by
  have hle : (n : Rat) ≤ 255 := by exact_mod_cast hn
  refine blend_eq_of_clampQ ?_ (roundhu_natCast n)
  rw [h, clampQ_mem n.cast_nonneg hle]

theorem blend_of_mix_neg {a c : Rat} {o : Nat} (h : a * c + (1 - a) * (o : Rat) < 0) : blend a c o = 0 :=
  blend_eq_of_clampQ (clampQ_below h.le (by norm_num)) (roundhu_natCast 0)

theorem blend_of_mix_gt {a c : Rat} {o : Nat} (h : 255 < a * c + (1 - a) * (o : Rat)) : blend a c o = 255 :=
  blend_eq_of_clampQ (clampQ_above h.le) (roundhu_natCast 255)

theorem blend_of_mix_eq_half {a c : Rat} {o k : Nat} (hk : k ≤ 254)
    (h : a * c + (1 - a) * (o : Rat) = (k : Rat) + 1 / 2) : blend a c o = k + 1 := by
  have h0 : (0 : Rat) ≤ k := k.cast_nonneg
  have hle : (k : Rat) ≤ 254 := by exact_mod_cast hk
  refine blend_eq_of_clampQ ?_ (roundhu_natCast_add_half k)
  rw [h, clampQ_mem (by linarith) (by linarith)]

theorem blend_zero_amount (c : Rat) {o : Nat} (ho : o ≤ 255) : blend 0 c o = o :=
  blend_of_mix_eq_byte ho (by ring)

theorem coe_blend_one_amount (c : Rat) (o : Nat) : ((blend 1 c o : Nat) : Int) = roundhu (clampQ c 0 255) := by
  rw [coe_blend, one_mul, sub_self, zero_mul, add_zero]

theorem blend_self (a : Rat) {o : Nat} (ho : o ≤ 255) : blend a o o = o :=
  blend_of_mix_eq_byte ho (by ring)

/-- Settles O11: each case computes the mix, or what it clamps to, and rounds that value. -/
theorem blendCornerCases : Obligations.BlendCornerCases := by
  unfold Obligations.BlendCornerCases
  intro a c o ho
  exact ⟨blend_zero_amount c ho, coe_blend_one_amount c o, blend_self a ho, blend_of_mix_neg, blend_of_mix_gt,
    fun _ hk => blend_of_mix_eq_half hk⟩

end Sys2Proof.Machine

/-! PROOF. The posterized value in exact arithmetic (41_perpixel.md R143). -/

namespace Sys2Proof.Machine

/-- The level index `floor(c*n/256)`, computed on rationals. -/
theorem floor_mul_div_256 (c n : Nat) : ⌊(c : Rat) * n / 256⌋ = ((c * n / 256 : Nat) : Int) := by
  exact_mod_cast Rat.floor_natCast_div_natCast (c * n) 256

theorem posterValue_eq_floor (c : Nat) {n : Nat} (hn : 1 ≤ n) :
    ((posterValue c n : Nat) : Int) = ⌊255 * (⌊(c : Rat) * n / 256⌋ : Rat) / ((n : Rat) - 1)⌋ := by
  have h := Rat.floor_natCast_div_natCast (255 * (c * n / 256)) (n - 1)
  rw [Nat.cast_mul, Nat.cast_sub hn, Nat.cast_one] at h
  rw [floor_mul_div_256, posterValue, Int.cast_natCast]
  exact_mod_cast h.symm

/-- The document's spelling of the expression and the rule's are the same rational. -/
theorem poster_step_mul_level (c n : Rat) :
    255 / (n - 1) * (⌊c / (256 / n)⌋ : Rat) = 255 * (⌊c * n / 256⌋ : Rat) / (n - 1) := by
  rw [div_div_eq_mul_div, div_mul_eq_mul_div]

theorem posterLevel_le {c n : Nat} (hc : c ≤ 255) (hn : 1 ≤ n) : c * n / 256 ≤ n - 1 := by
  have h : c * n ≤ 255 * n := Nat.mul_le_mul_right n hc
  omega

theorem posterValue_le {c n : Nat} (hc : c ≤ 255) (hn : 1 ≤ n) : posterValue c n ≤ 255 :=
  Nat.div_le_of_le_mul (by
    rw [Nat.mul_comm (n - 1)]
    exact Nat.mul_le_mul_left 255 (posterLevel_le hc hn))

/-- Settles O32: both spellings are one rational, whose floor is the natural-number quotient. -/
theorem posterizedValueIsExact : Obligations.PosterizedValueIsExact := by
  unfold Obligations.PosterizedValueIsExact
  intro c n hc hn
  have h1 : 1 ≤ n := Nat.one_le_of_lt hn
  refine ⟨?_, posterValue_eq_floor c h1, posterValue_le hc h1⟩
  rw [poster_step_mul_level, posterValue_eq_floor c h1]

end Sys2Proof.Machine

/-! PROOF. Hex digits and the tint string (41_perpixel.md R137 to R139). -/

namespace Sys2Proof.Machine

/-! ### One hex digit -/

theorem hexVal_of_decimal {c : Byte} (h0 : 0x30 ≤ c.toNat) (h9 : c.toNat ≤ 0x39) :
    hexVal c = some (c.toNat - 0x30) := by
  rw [hexVal, if_pos ⟨h0, h9⟩]

theorem hexVal_of_upper {c : Byte} (hA : 0x41 ≤ c.toNat) (hF : c.toNat ≤ 0x46) :
    hexVal c = some (c.toNat - 0x41 + 10) := by
  rw [hexVal, if_neg (by omega), if_pos ⟨hA, hF⟩]

theorem hexVal_of_lower {c : Byte} (ha : 0x61 ≤ c.toNat) (hf : c.toNat ≤ 0x66) :
    hexVal c = some (c.toNat - 0x61 + 10) := by
  rw [hexVal, if_neg (by omega), if_neg (by omega), if_pos ⟨ha, hf⟩]

theorem hexVal_eq_none {c : Byte} (h : c.toNat < 0x30 ∨ (0x39 < c.toNat ∧ c.toNat < 0x41) ∨
    (0x46 < c.toNat ∧ c.toNat < 0x61) ∨ 0x66 < c.toNat) : hexVal c = none := by
  rw [hexVal, if_neg (by omega), if_neg (by omega), if_neg (by omega)]

/-- Settles O34, one lemma for each branch of the digit table. -/
theorem hexDigitValues : Obligations.HexDigitValues := by
  unfold Obligations.HexDigitValues
  exact fun _ => ⟨hexVal_of_decimal, hexVal_of_upper, hexVal_of_lower, hexVal_eq_none⟩

theorem hexVal_le {c : Byte} {d : Nat} (h : hexVal c = some d) : d ≤ 15 := by
  simp only [hexVal] at h
  split_ifs at h
  all_goals
    cases h
    omega

/-! ### The digits of a string -/

theorem hexDigits_cons (b : Byte) (bs : List Byte) :
    hexDigits (b :: bs) = (hexVal b).bind fun d => (hexDigits bs).map (d :: ·) := by
  rw [hexDigits]
  cases hexVal b <;> cases hexDigits bs <;> rfl

/-- The digits of a string are `ds` exactly when its bytes, one by one, have the values `ds`. -/
theorem hexDigits_eq_some_iff {bs : List Byte} {ds : List Nat} :
    hexDigits bs = some ds ↔ bs.map hexVal = ds.map some := by
  induction bs generalizing ds with
  | nil => cases ds <;> simp [hexDigits]
  | cons b bs ih => cases ds <;> simp [hexDigits_cons, Option.bind_eq_some_iff, ih]

theorem hexDigits_isSome_iff (bs : List Byte) :
    (hexDigits bs).isSome = true ↔ ∀ b ∈ bs, (hexVal b).isSome = true := by
  induction bs with
  | nil => simp [hexDigits]
  | cons b bs ih =>
    rw [List.forall_mem_cons, ← ih, hexDigits_cons]
    cases hexVal b <;> simp

theorem length_of_hexDigits {bs : List Byte} {ds : List Nat} (h : hexDigits bs = some ds) :
    ds.length = bs.length := by
  simpa using (congrArg List.length (hexDigits_eq_some_iff.1 h)).symm

theorem hexDigits_le {bs : List Byte} {ds : List Nat} (h : hexDigits bs = some ds) : ∀ d ∈ ds, d ≤ 15 := by
  intro d hd
  have hmem : some d ∈ bs.map hexVal := by
    rw [hexDigits_eq_some_iff.1 h]
    exact List.mem_map_of_mem hd
  obtain ⟨b, -, hb⟩ := List.mem_map.1 hmem
  exact hexVal_le hb

/-! ### The colour of the digits -/

theorem colourOfDigits_isSome_iff : (ds : List Nat) →
    ((colourOfDigits ds).isSome = true ↔ ds.length = 3 ∨ ds.length = 6)
  | [] | [_] | [_, _] | [_, _, _] | [_, _, _, _] | [_, _, _, _, _] | [_, _, _, _, _, _] => by
    simp [colourOfDigits]
  | _ :: _ :: _ :: _ :: _ :: _ :: _ :: _ => by simp [colourOfDigits]

/-- Three channels, each of two digits, fit a byte. -/
theorem colourOfDigits_channels {ds colour : List Nat} (hds : ∀ d ∈ ds, d ≤ 15)
    (h : colourOfDigits ds = some colour) : colour.length = 3 ∧ ∀ v ∈ colour, v ≤ 255 := by
  unfold colourOfDigits at h
  split at h
  case h_3 => cases h
  all_goals
    cases h
    refine ⟨rfl, ?_⟩
    simp only [List.forall_mem_cons, List.not_mem_nil, false_imp_iff, implies_true, and_true] at hds ⊢
    omega

/-! ### The tint string -/

theorem parseTint_eq_bind (h0 h1 : Word) :
    parseTint h0 h1 = (hexDigits (dropHash (untilNul (tintBytes h0 h1)))).bind colourOfDigits := by
  rw [parseTint]
  cases hexDigits (dropHash (untilNul (tintBytes h0 h1))) <;> rfl

/-- A string whose bytes have the digit values `ds` names the colour of `ds`. -/
theorem parseTint_of_map_hexVal {h0 h1 : Word} {ds : List Nat}
    (h : (dropHash (untilNul (tintBytes h0 h1))).map hexVal = ds.map some) :
    parseTint h0 h1 = colourOfDigits ds := by
  rw [parseTint_eq_bind, hexDigits_eq_some_iff.2 h, Option.bind_some]

theorem parseTint_isSome_iff (h0 h1 : Word) :
    (parseTint h0 h1).isSome = true ↔
      ((dropHash (untilNul (tintBytes h0 h1))).length = 3 ∨ (dropHash (untilNul (tintBytes h0 h1))).length = 6) ∧
        ∀ b ∈ dropHash (untilNul (tintBytes h0 h1)), (hexVal b).isSome = true := by
  rw [parseTint_eq_bind, ← hexDigits_isSome_iff]
  cases h : hexDigits (dropHash (untilNul (tintBytes h0 h1))) with
  | none => simp
  | some ds => simp [colourOfDigits_isSome_iff, length_of_hexDigits h]

theorem parseTint_channels {h0 h1 : Word} {colour : List Nat} (h : parseTint h0 h1 = some colour) :
    colour.length = 3 ∧ ∀ v ∈ colour, v ≤ 255 := by
  rw [parseTint_eq_bind] at h
  obtain ⟨ds, hds, hcolour⟩ := Option.bind_eq_some_iff.1 h
  exact colourOfDigits_channels (hexDigits_le hds) hcolour

/-- Settles O35: the string is parsed by its digits, whose count decides and whose values give the colour. -/
theorem tintStringLegality : Obligations.TintStringLegality := by
  unfold Obligations.TintStringLegality
  intro h0 h1
  exact ⟨parseTint_isSome_iff h0 h1, fun d0 d1 d2 h => parseTint_of_map_hexVal (ds := [d0, d1, d2]) h,
    fun _ h => parseTint_channels h,
    fun e0 e1 e2 e3 e4 e5 h => parseTint_of_map_hexVal (ds := [e0, e1, e2, e3, e4, e5]) h⟩

end Sys2Proof.Machine

/-! PROOF. The convolution: the clamped sum (42_convolution.md R174, R175), and normalization that ignores a scale
factor of the kernel (R173, R179). -/

namespace Sys2Proof.Machine

open Sys2Proof.Safety

/-! ### The clamped sum -/

theorem sumTo_eq_sum_range (n : Nat) (f : Nat → Rat) : sumTo n f = ∑ i ∈ Finset.range n, f i := rfl

/-- The two orders of clamping agree on a non-empty range. -/
theorem clampCoord_eq_toNat_max_min {n : Nat} (hn : 1 ≤ n) (i : Int) :
    clampCoord n i = (max 0 (min i ((n : Int) - 1))).toNat := by
  unfold clampCoord
  omega

/-- The neighbour read of a non-empty buffer. -/
theorem neighbour_eq_inCh {s : State} (hw : 1 ≤ bufW s) (hh : 1 ≤ bufH s) (x y : Nat) (dx dy : Int) (c : Nat) :
    neighbour s x y dx dy c =
      inCh s (max 0 (min ((x : Int) + dx) ((bufW s : Int) - 1))).toNat
        (max 0 (min ((y : Int) + dy) ((bufH s : Int) - 1))).toNat c := by
  rw [neighbour, clampCoord_eq_toNat_max_min hw, clampCoord_eq_toNat_max_min hh]

/-- Settles O40, term by term: each neighbour the sum reads is the source channel at the clamped coordinates. -/
theorem convolutionSumIsTheClampedCorrelation : Obligations.ConvolutionSumIsTheClampedCorrelation := by
  unfold Obligations.ConvolutionSumIsTheClampedCorrelation
  intro s k ws x y c hw hh
  simp only [convSum, sumTo_eq_sum_range, neighbour_eq_inCh hw hh, ← add_sub_assoc]

/-! ### Normalization -/

/-- With NORM_TOL = 0 the requested division is by the sum in every case: a sum of 1 that skips it changes nothing. A
zero sum, which check 4 stops, divides by 0 here as in the definition. -/
theorem effectiveWeights_true (ws : List Rat) :
    effectiveWeights true ws = ws.map fun w => w / ws.sum := by
  by_cases h1 : ws.sum = 1
  · simp [effectiveWeights, h1, Config.normTol]
  · simp [effectiveWeights, Config.normTol, sub_eq_zero, h1]

/-- The factor cancels in every quotient of a weight by the sum. -/
theorem effectiveWeights_true_scale (ws : List Rat) {q : Rat} (hq : q ≠ 0) :
    effectiveWeights true (ws.map fun w => q * w) = effectiveWeights true ws := by
  have hsum : (ws.map fun w => q * w).sum = q * ws.sum := by
    rw [List.sum_map_mul_left, List.map_id']
  rw [effectiveWeights_true, effectiveWeights_true, hsum, List.map_map]
  exact List.map_congr_left fun w _ => mul_div_mul_left w ws.sum hq

/-- What a ready CONV.MATRIX.N leaves. -/
theorem exec_convMatrixN_of_ready {s : State} (h : Ready .convMatrixN s) :
    exec .convMatrixN s = .next (completeCommand (writeOutput s (convLane s
      (f64val (amountReg s.params .matrix), ksizeOf s,
        effectiveWeights true (entryValues s.kw (ksizeOf s * ksizeOf s)))))) :=
  pixelCommand_completes (convLane s) h.buffer (matrixOperands_ok h.operands fun _ => h.sum) h.input

/-- The KW memory reaches the output of a convolution through the weights only. -/
theorem writeOutput_convLane_kw (s : State) (kw' : Memory) (v : Rat × Nat × List Rat) :
    writeOutput { s with kw := kw' } (convLane { s with kw := kw' } v) =
      { writeOutput s (convLane s v) with kw := kw' } := rfl

/-- Settles O38: the weights agree because the factor cancels, and KW reaches the command's end through its effective
weights alone. -/
theorem normalizationIgnoresScale : Obligations.NormalizationIgnoresScale := by
  unfold Obligations.NormalizationIgnoresScale
  refine ⟨fun ws q hq _ => effectiveWeights_true_scale ws hq, fun s kw' q hq h h' hkw => ?_⟩
  have hws : effectiveWeights true (entryValues kw' (ksizeOf s * ksizeOf s)) =
      effectiveWeights true (entryValues s.kw (ksizeOf s * ksizeOf s)) := by
    rw [hkw, effectiveWeights_true_scale _ hq]
  refine ⟨_, exec_convMatrixN_of_ready h, ?_⟩
  rw [exec_convMatrixN_of_ready h', writeOutput_convLane_kw, ← hws]
  rfl

end Sys2Proof.Machine

/-! PROOF. The Gaussian blur: the two exact passes as one 2-D convolution (43_gaussian.md R204). -/

namespace Sys2Proof.Machine

/-! ### The row a pass reads -/

/-- Clamping keeps a clamped coordinate, in an empty range too. -/
theorem clampCoord_clampCoord (n : Nat) (i : Int) : clampCoord n (clampCoord n i : Nat) = clampCoord n i := by
  unfold clampCoord
  omega

/-- A horizontal read from the clamped row is the read at the vertical offset of that row. -/
theorem neighbour_clampCoord_row (s : State) (x y : Nat) (dx dy : Int) (c : Nat) :
    neighbour s x (clampCoord (bufH s) (y + dy)) dx 0 c = neighbour s x y dx dy c := by
  rw [neighbour, neighbour, add_zero, clampCoord_clampCoord]

/-! ### The product kernel -/

/-- The row-major `n` x `n` kernel of the products of two taps. -/
def productKernel (n : Nat) (g : List Rat) : List Rat :=
  (List.range (n * n)).map fun m => g.getD (m / n) 0 * g.getD (m % n) 0

theorem productKernel_getD {n row col : Nat} (g : List Rat) (hrow : row < n) (hcol : col < n) :
    (productKernel n g).getD (col + row * n) 0 = g.getD row 0 * g.getD col 0 := by
  have hlt : col + row * n < n * n := by
    calc col + row * n < n + row * n := by omega
      _ = (row + 1) * n := by ring
      _ ≤ n * n := Nat.mul_le_mul_right n hrow
  have hdiv : (col + row * n) / n = row := by
    rw [Nat.add_mul_div_right _ _ (by omega), Nat.div_eq_of_lt hcol, zero_add]
  have hmod : (col + row * n) % n = col := by
    rw [Nat.add_mul_mod_self_right, Nat.mod_eq_of_lt hcol]
  simp [productKernel, List.getD_eq_getElem?_getD, hlt, hdiv, hmod]

/-! ### One convolution for the two passes -/

/-- Distributing each vertical tap over its row gives the convolution's terms, one by one; the two spellings of the
radius agree for an odd size. -/
theorem blurSum_eq_convSum_productKernel (s : State) {n : Nat} (g : List Rat) (hn : n % 2 = 1) (x y c : Nat) :
    blurSum s n g x y c = convSum s n (productKernel n g) x y c := by
  have hradius : (n - 1) / 2 = n / 2 := by omega
  simp only [blurSum, blurRow, convSum, sumTo_eq_sum_range, hradius, Finset.mul_sum]
  refine Finset.sum_congr rfl fun row hrow => Finset.sum_congr rfl fun col hcol => ?_
  rw [neighbour_clampCoord_row, productKernel_getD g (Finset.mem_range.1 hrow) (Finset.mem_range.1 hcol)]
  ring

/-- Settles O41: equal sums, and both lanes blend them with amount 1. -/
theorem blurEqualsTwoDimensionalConvolution : Obligations.BlurEqualsTwoDimensionalConvolution := by
  unfold Obligations.BlurEqualsTwoDimensionalConvolution
  intro s n g hn _ x y c
  have hsum := blurSum_eq_convSum_productKernel s g hn x y c
  exact ⟨hsum, congrArg (blend 1 · (inCh s x y c)) hsum⟩

end Sys2Proof.Machine

/-! PROOF. The ends of a command (44_dispatch.md R225 to R231): what each failing check records and which check fails
first, and that a command which passes them writes exactly its buffer. -/

namespace Sys2Proof.Machine

open Sys2Proof.Safety

/-! ### The start of a command and check 1 -/

theorem busWrite_cmd_idle {s : State} (hr : s.rst = false) (hb : s.busy = false) (v : Word) :
    busWrite s .b4 0x01C v = startCommand v s := by
  rw [busWrite_cmd hr, whenIdle_idle hb]

theorem irq_startCommand (v : Word) (s : State) : irq (startCommand v s) = false := by
  simp [irq]

/-- Settles O43: an idle block takes the CMD write as a command start, a busy one drops it. -/
theorem cmdWriteStartsACommand : Obligations.CmdWriteStartsACommand := by
  unfold Obligations.CmdWriteStartsACommand
  refine fun s v hr => ⟨fun hb => ?_, fun hb => ?_⟩
  · rw [busWrite_cmd_idle hr hb]
    exact ⟨rfl, irq_startCommand v s⟩
  · rw [busWrite_cmd hr, whenIdle_busy hb]

/-- The engine's turn right after a command start runs the started word. -/
theorem engineTurn_startCommand {s : State} (hr : s.rst = false) (w : Word) :
    engineTurn (startCommand w s) = runCommand (startCommand w s) :=
  engineTurn_active (by simp [engineActive, hr])

theorem exists_decode_error {w : Word} (h : ¬ (CmdFields.ofWord w).wellFormed = true) : ∃ r, decode w = .error r :=
  (decode_error_iff w).2 (mt (decode_ok_iff_wellFormed w).1 h)

/-- Settles O8: the decoder rejects a word that is not legal by its fields, and the engine's turn on the started command
records that. -/
theorem illegalWordFailsAsUnknownFilter : Obligations.IllegalWordFailsAsUnknownFilter := by
  unfold Obligations.IllegalWordFailsAsUnknownFilter
  intro s w hb hr hw
  obtain ⟨r, hdecode⟩ := exists_decode_error (mt (CmdFields.wellFormed_iff _).1 hw)
  rw [busWrite_cmd_idle hr hb, engineTurn_startCommand hr]
  exact runCommand_illegal hdecode

/-! ### The buffer check -/

/-- Every command but DEFAULTS runs in the shared frame of the pixel commands. -/
theorem exists_exec_eq_pixelCommand {i : Instr} (hi : i ≠ .defaults) (s : State) :
    ∃ (α : Type) (operands : Except Stop α) (lane : α → Nat → Nat → Nat → Nat),
      exec i s = pixelCommand s operands lane := by
  cases i with
  | defaults => exact absurd rfl hi
  | _ => exact ⟨_, _, _, rfl⟩

theorem pixelCommand_buffer_error {α : Type} {s : State} {e : Stop} (operands : Except Stop α)
    (lane : α → Nat → Nat → Nat → Nat) (h : checkBuffer s = .error e) :
    pixelCommand s operands lane = stopCommand e s := by
  unfold pixelCommand
  rw [h]

/-- A failing buffer check ends every pixel command, whatever its operands. -/
theorem exec_buffer_error {i : Instr} {s : State} {e : Stop} (hi : i ≠ .defaults) (h : checkBuffer s = .error e) :
    exec i s = stopCommand e s := by
  obtain ⟨_, operands, lane, hexec⟩ := exists_exec_eq_pixelCommand hi s
  rw [hexec, pixelCommand_buffer_error operands lane h]

theorem checkBuffer_length {s : State} (h : bufBytes s ≠ s.dataLen.toNat) :
    checkBuffer s = .error (.raise .invalidBuffer 0x028) := by
  rw [checkBuffer, if_pos h]

theorem checkBuffer_capacity {s : State} (h : bufBytes s = s.dataLen.toNat) (hcap : Config.memBytes < bufBytes s) :
    checkBuffer s = .error (.raise .invalidBuffer 0x020) := by
  rw [checkBuffer, if_neg (not_not_intro h), if_pos hcap]

/-- Settles O22: the two failures of the buffer check, each of which ends the command. -/
theorem bufferCheckRaisesInvalidBuffer : Obligations.BufferCheckRaisesInvalidBuffer := by
  unfold Obligations.BufferCheckRaisesInvalidBuffer
  exact fun i s hi => ⟨fun hlen => exec_buffer_error hi (checkBuffer_length hlen),
    fun hlen hcap => exec_buffer_error hi (checkBuffer_capacity hlen hcap)⟩

/-! ### The operand checks -/

theorem presetOperands_error {s : State} {a : Amount} {off : Nat} (ws : List Rat) (norm : Bool)
    (h : firstFailing [(amountOffset a, f64Finite (amountReg s.params a))] = some off) :
    presetOperands s a ws norm = .error (.raise .invalidParameter (BitVec.ofNat 32 off)) := by
  rw [presetOperands_eq, answersTable_error _ h]

/-- Settles O23, command by command: the operands answer InvalidParameter at the first failing check of the table, and
a pixel command with a valid buffer ends with what its operands answer. -/
theorem firstBadOperandRaisesInvalidParameter : Obligations.FirstBadOperandRaisesInvalidParameter := by
  unfold Obligations.FirstBadOperandRaisesInvalidParameter
  intro i s off hb hf hkw hgt
  have stop {α : Type} {operands : Except Stop α} (lane : α → Nat → Nat → Nat → Nat)
      (ho : operands = .error (.raise .invalidParameter (BitVec.ofNat 32 off))) :
      pixelCommand s operands lane = .next (failed .invalidParameter (BitVec.ofNat 32 off) s) :=
    pixelCommand_operand_error lane hb ho
  cases i with
  | grey => exact stop _ ((greyOperands_eq s).trans (answersTable_error _ hf))
  | sepia => exact stop _ ((sepiaOperands_eq s).trans (answersTable_error _ hf))
  | tint => exact stop _ ((tintOperands_eq s).trans (answersTable_error _ hf))
  | poster => exact stop _ ((posterOperands_eq s).trans (answersTable_error _ hf))
  | mosaic => exact stop _ ((mosaicOperands_eq s).trans (answersTable_error _ hf))
  | convBox => exact stop _ (presetOperands_error _ _ hf)
  | convEdges => exact stop _ (presetOperands_error _ _ hf)
  | convEmboss => exact stop _ (presetOperands_error _ _ hf)
  | convSharpen => exact stop _ (presetOperands_error _ _ hf)
  | convMatrix => exact stop _ (matrixOperands_error hf (hkw (.inl rfl)))
  | convMatrixN => exact stop _ (matrixOperands_error hf (hkw (.inr rfl)))
  | gblur => exact stop _ (gblurOperands_error hf (hgt rfl))
  | defaults => cases hf

/-! ### The zero-sum check -/

theorem matrixOperands_zero_sum {s : State} (h : firstFailing (operandChecks s .convMatrix) = none)
    (hsum : (entryValues s.kw (ksizeOf s * ksizeOf s)).sum = 0) :
    matrixOperands s true = .error (.raise .invalidBuffer 0x400) := by
  rw [operandChecks, firstFailing_cons, firstFailing_cons] at h
  split_ifs at h with hsize hamount
  have hamount' : f64Finite (amountReg s.params .matrix) = true := hamount
  rw [matrixOperands_eq, if_pos hsize, if_pos hamount', weightValues_entryValues .kw 0x400 (entries_finite_of_none h),
    except_ok_bind, if_pos ⟨rfl, hsum⟩]

theorem gblurOperands_zero_sum {s : State} (h : firstFailing (operandChecks s .gblur) = none)
    (hsum : (entryValues s.gt (glenOf s)).sum = 0) :
    gblurOperands s = .error (.raise .invalidBuffer 0x800) := by
  rw [operandChecks, firstFailing_cons] at h
  split_ifs at h with hlen
  rw [gblurOperands_eq, if_pos hlen, weightValues_entryValues .gt 0x800 (entries_finite_of_none h), except_ok_bind,
    if_pos hsum]

/-- The source check never raises an error of the block. -/
theorem checkInput_ne_raise (s : State) (k : ErrKind) (info : Word) : checkInput s ≠ .error (.raise k info) := by
  unfold checkInput
  split <;> simp

/-- With a valid buffer, a pixel command that ends records the error its operands answer, or completes. -/
theorem pixelCommand_next_cases {α : Type} {s t : State} {operands : Except Stop α}
    {lane : α → Nat → Nat → Nat → Nat} (hb : BufferFits s) (h : pixelCommand s operands lane = .next t) :
    (∃ k info, operands = .error (.raise k info) ∧ t = raiseError k info s) ∨
      ∃ v, operands = .ok v ∧ t = completeCommand (writeOutput s (lane v)) := by
  unfold pixelCommand at h
  rw [(checkBuffer_ok s).2 hb] at h
  cases operands with
  | error e =>
    obtain ⟨k, info, rfl, ht⟩ := stopCommand_next h
    exact .inl ⟨k, info, rfl, ht⟩
  | ok v =>
    cases hin : checkInput s with
    | error e =>
      rw [hin] at h
      obtain ⟨k, info, rfl, -⟩ := stopCommand_next h
      exact absurd hin (checkInput_ne_raise s k info)
    | ok _ =>
      rw [hin] at h
      cases h
      exact .inr ⟨v, rfl, rfl⟩

/-- The only error operands checked against a table of registers answer is InvalidParameter. -/
theorem answersTable_raise {α : Type} {cs : List (Nat × Bool)} {v : α} {k : ErrKind} {info : Word}
    (h : answersTable cs v = .error (.raise k info)) : k = .invalidParameter := by
  unfold answersTable at h
  split at h <;> cases h
  rfl

/-- A preset has no zero-sum check: with a valid buffer it records InvalidParameter or nothing. -/
theorem preset_errCode {s t : State} {a : Amount} {ws : List Rat} {norm : Bool} (hb : BufferFits s)
    (h : pixelCommand s (presetOperands s a ws norm) (convLane s) = .next t) :
    t.errCode ≠ some .invalidBuffer ∨ t.errCode = s.errCode := by
  rcases pixelCommand_next_cases hb h with ⟨k, info, ho, rfl⟩ | ⟨v, -, rfl⟩
  · rw [presetOperands_eq] at ho
    cases answersTable_raise ho
    exact .inl (by simp)
  · exact .inr rfl

/-- Settles O24: the operands with the zero-sum check answer InvalidBuffer, and those of the presets never do. -/
theorem zeroSumRaisesInvalidBuffer : Obligations.ZeroSumRaisesInvalidBuffer := by
  unfold Obligations.ZeroSumRaisesInvalidBuffer
  refine fun s hb => ⟨fun hf hsum => ?_, fun hf hsum => ?_, fun i hi t ht => ?_⟩
  · exact pixelCommand_operand_error (convLane s) hb (matrixOperands_zero_sum hf hsum)
  · exact pixelCommand_operand_error (gblurLane s) hb (gblurOperands_zero_sum hf hsum)
  · rcases hi with rfl | rfl | rfl | rfl <;> exact preset_errCode hb ht

/-! ### The whole output or none -/

theorem writeOutput_written {s : State} (lane : Nat → Nat → Nat → Nat) {a : Nat} (ha : a < bufBytes s) :
    (Memory.read (writeOutput s lane).outMem a).isSome = true := by
  rw [writeOutput_outMem, read_overwrite, if_pos ha, Option.isSome_some]

/-- Settles O25, from the three ways a command can answer a next state. -/
theorem commandEndsWholeOrNotAtAll : Obligations.CommandEndsWholeOrNotAtAll := by
  unfold Obligations.CommandEndsWholeOrNotAtAll
  intro i s t h
  rcases exec_next_cases h with ⟨k, info, rfl⟩ | ⟨hi, -, -, lane, rfl⟩ | ⟨hi, rfl⟩
  · exact .inl ⟨k, info, rfl⟩
  · exact .inr (.inl ⟨hi, completed_writeOutput s lane, fun _ ha => writeOutput_written lane ha⟩)
  · exact .inr (.inr ⟨hi, rfl⟩)

theorem completed_inMem {s t : State} (h : Completed s t) : t.inMem = s.inMem := by
  rw [h.1]

/-- Settles O26: without an error record the command completed with its whole output, whose bytes do not depend on what
OUT_MEM held (O29). -/
theorem successWritesExactlyTheBuffer : Obligations.SuccessWritesExactlyTheBuffer := by
  unfold Obligations.SuccessWritesExactlyTheBuffer
  intro i s t hi herr h hterr
  rcases commandEndsWholeOrNotAtAll i s t h with ⟨k, info, rfl⟩ | ⟨-, hc, hwritten⟩ | ⟨hd, -⟩
  · cases hterr
  · refine ⟨hwritten, fun m => ?_, hc.2, completed_inMem hc⟩
    obtain ⟨t', ht', -, -, -, -, hsuccess⟩ :=
      outcomeDependsOnlyOnOperands i s { s with outMem := m } t rfl rfl rfl rfl rfl rfl rfl herr herr h
    exact ⟨t', ht', (hsuccess hterr).2 hi⟩
  · exact absurd hd hi

/-! ### DEFAULTS -/

theorem exec_defaults (s : State) :
    exec .defaults s = .next (completeCommand { s with params := Params.reset }) := rfl

/-- Settles O21: DEFAULTS has no check, and on its own result every field it sets has that value already. -/
theorem defaultsRestoresTheParameters : Obligations.DefaultsRestoresTheParameters := by
  unfold Obligations.DefaultsRestoresTheParameters
  exact ⟨by decide, fun s => ⟨_, exec_defaults s, exec_defaults _, rfl⟩⟩

end Sys2Proof.Machine

/-! PROOF. The interrupt level (60_exceptions.md R258): when `irq` is high and when it is low, and which of the two each
end of a command, each flag write and each reset leaves. -/

namespace Sys2Proof.Machine

/-! ### The level -/

theorem irq_out_of_reset {s : State} (hr : s.rst = false) : irq s = (s.irqEn && (s.done || s.err)) := by
  rw [irq, hr, Bool.not_false, Bool.true_and]

theorem irq_high {s : State} (hr : s.rst = false) (hen : s.irqEn = true) (hflag : s.done = true ∨ s.err = true) :
    irq s = true := by
  rw [irq_out_of_reset hr, hen, Bool.true_and, Bool.or_eq_true]
  exact hflag

theorem irq_low_of_masked {s : State} (h : s.irqEn = false) : irq s = false := by
  simp [irq, h]

theorem irq_low_of_no_completion {s : State} (hdone : s.done = false) (herr : s.err = false) : irq s = false := by
  simp [irq, hdone, herr]

/-! ### Completions, flag writes and resets -/

/-- A command that ends does so with DONE or ERR, and keeps IRQ_EN and the level of `rst`. -/
theorem exec_flags {i : Instr} {s t : State} (h : exec i s = .next t) :
    t.rst = s.rst ∧ t.irqEn = s.irqEn ∧ (t.done = true ∨ t.err = true) := by
  rcases exec_next_cases h with ⟨k, info, rfl⟩ | ⟨-, -, -, lane, rfl⟩ | ⟨-, rfl⟩
  · exact ⟨rfl, rfl, .inr rfl⟩
  · exact ⟨rfl, rfl, .inl rfl⟩
  · exact ⟨rfl, rfl, .inl rfl⟩

theorem writeCtrl_softReset {v : Word} (h : v.getLsbD 1 = true) (s : State) : writeCtrl v s = softReset s :=
  if_pos h

theorem writeCtrl_irqEn {v : Word} (h : v.getLsbD 1 = false) (s : State) :
    writeCtrl v s = { s with irqEn := v.getLsbD 0 } := by
  rw [writeCtrl, h]
  rfl

@[simp] theorem softReset_irqEn (s : State) : (softReset s).irqEn = false := rfl

/-- IRQ_EN is low after a CTRL write with bit 0 clear: the write stores that bit, or is a soft reset. -/
theorem writeCtrl_masks {v : Word} (h : v.getLsbD 0 = false) (s : State) : (writeCtrl v s).irqEn = false := by
  cases hsrst : v.getLsbD 1 with
  | true => rw [writeCtrl_softReset hsrst, softReset_irqEn]
  | false => rw [writeCtrl_irqEn hsrst]; exact h

theorem writeStatus_done (v : Word) (s : State) : (writeStatus v s).done = (s.done && !v.getLsbD 1) := by
  simp only [writeStatus, apply_ite State.done, clearError_done, ite_self]
  cases v.getLsbD 1 <;> simp

theorem writeStatus_err (v : Word) (s : State) : (writeStatus v s).err = (s.err && !v.getLsbD 2) := by
  simp only [writeStatus, apply_ite State.err, clearError_err, ite_self]
  cases v.getLsbD 2 <;> simp

theorem driveRst_high (s : State) : driveRst s true = hardReset true s := by
  rw [driveRst, Bool.or_true]
  rfl

theorem driveRst_of_rst {s : State} (hr : s.rst = true) (level : Bool) : driveRst s level = hardReset level s := by
  rw [driveRst, hr]
  rfl

theorem irq_hardReset (level : Bool) (s : State) : irq (hardReset level s) = false :=
  irq_low_of_masked rfl

/-- Settles O51: each rise leaves IRQ_EN set over DONE or ERR, and each fall clears IRQ_EN or both of the other two. -/
theorem irqFollowsTheCompletionFlags : Obligations.IrqFollowsTheCompletionFlags := by
  unfold Obligations.IrqFollowsTheCompletionFlags
  refine ⟨fun s => irq_out_of_reset, fun i s t hr hen h => ?completion, fun s v hr hsrst hen hflag => ?enable,
    fun s v hr hdone herr => ?clear, fun s v hr hb => ?start, fun s v hr hen => ?mask, fun s v hr hsrst => ?softReset,
    fun s => ⟨?raise, ?release⟩, fun _ _ _ => rfl⟩
  case completion =>
    obtain ⟨hrst, hirqEn, hflag⟩ := exec_flags h
    exact irq_high (hrst.trans hr) (hirqEn.trans hen) hflag
  case enable =>
    rw [busWrite_ctrl hr, writeCtrl_irqEn hsrst]
    exact irq_high hr hen hflag
  case clear =>
    rw [busWrite_status hr]
    exact irq_low_of_no_completion (by simp [writeStatus_done, hdone]) (by simp [writeStatus_err, herr])
  case start => rw [busWrite_cmd_idle hr hb, irq_startCommand]
  case mask => rw [busWrite_ctrl hr, irq_low_of_masked (writeCtrl_masks hen s)]
  case softReset => rw [busWrite_ctrl hr, writeCtrl_softReset hsrst, irq_low_of_masked (softReset_irqEn s)]
  case raise => rw [driveRst_high, irq_hardReset]
  case release => rw [driveRst_high, driveRst_of_rst (hardReset_rst true s), irq_hardReset]

end Sys2Proof.Machine

/-! PROOF. Host writes while a command runs, and the soft reset (70_reset_and_hazards.md R283, R290): which writes a
running command drops, and what a CTRL write with SRST = 1 restores and keeps. -/

namespace Sys2Proof.Machine

open Sys2Proof.Safety

/-! ### Writes while a command runs -/

/-- A data register is closed while a command runs. -/
theorem busWrite_dataRegister_busy {s : State} {size : Size} {off : BitVec 22} (hr : s.rst = false)
    (hb : s.busy = true) (hs : supported size off = true) (hd : dataRegister off.toNat = true) (v : Word) :
    busWrite s size off v = { s with busyWr := true } := by
  have hlt : off.toNat < 0x100000 := by
    have hrange := ((dataRegister_iff off.toNat).1 hd).2
    omega
  obtain ⟨-, h4, ht⟩ := target_reg hs hlt
  rw [busWrite_reg hr ht, writeReg_data ((regLoc_class h4).1 hd) hb]

theorem busWrite_pixel_busy {s : State} {size : Size} {off : BitVec 22} (hr : s.rst = false)
    (hb : s.busy = true) (hs : supported size off = true) (hge : 0x100000 ≤ off.toNat) (v : Word) :
    busWrite s size off v = { s with busyWr := true } := by
  rw [busWrite_pixel hr (target_pixel hs hge).1, whenIdle_busy hb]

/-- A register offset outside CTRL, STATUS, CMD and the data registers holds a read-only or reserved location. -/
theorem regLoc_isReadOnly {off : BitVec 22} (h4 : off.toNat % 4 = 0) (hctrl : off ≠ 0x010) (hstatus : off ≠ 0x014)
    (hcmd : off ≠ 0x01C) (hd : dataRegister off.toNat = false) : (regLoc off.toNat).isReadOnly = true :=
  (regLoc_class h4).2 hd (fun h => hctrl (BitVec.eq_of_toNat_eq h)) (fun h => hstatus (BitVec.eq_of_toNat_eq h))
    (fun h => hcmd (BitVec.eq_of_toNat_eq h))

/-- Settles O44, by what the offset reaches: CTRL and STATUS are open to a running command's host, CMD, the data
registers and the pixel windows are closed, and every other register is read-only or reserved. -/
theorem writesWhileBusyAreDropped : Obligations.WritesWhileBusyAreDropped := by
  unfold Obligations.WritesWhileBusyAreDropped
  intro s size off v hr hb hs
  refine ⟨?ctrl, ?status, ?closed, ?readOnly⟩
  case ctrl =>
    rintro rfl
    obtain ⟨rfl, -⟩ := target_reg hs (by decide)
    exact busWrite_ctrl hr v
  case status =>
    rintro rfl
    obtain ⟨rfl, -⟩ := target_reg hs (by decide)
    exact busWrite_status hr v
  case closed =>
    rintro (rfl | hd | hge)
    · obtain ⟨rfl, -⟩ := target_reg hs (by decide)
      rw [busWrite_cmd hr, whenIdle_busy hb]
    · exact busWrite_dataRegister_busy hr hb hs hd v
    · exact busWrite_pixel_busy hr hb hs hge v
  case readOnly =>
    intro hlt hctrl hstatus hcmd hd
    obtain ⟨-, h4, ht⟩ := target_reg hs hlt
    exact busWrite_readOnly hr ht (regLoc_isReadOnly h4 hctrl hstatus hcmd hd) v

/-! ### Soft reset -/

theorem softReset_idle {s : State} (hb : s.busy = false) : softReset s = resetRegisters s := by
  rw [softReset, hb]
  rfl

theorem softReset_busy {s : State} (hb : s.busy = true) : softReset s = resetRegisters (abandonCommand s) := by
  rw [softReset, hb]
  rfl

theorem resetRegisters_eq_reset {s : State} (hr : s.rst = false) :
    resetRegisters s = { State.reset with
      turns := s.turns, rdata := s.rdata, era := s.era, draws := s.draws
      kw := s.kw, gt := s.gt, inMem := s.inMem, outMem := s.outMem } := by
  rw [resetRegisters, hr]
  rfl

/-- The block after a soft reset out of reset: the reset state but for the model's own fields, the read data and the
memories, of which only OUT_MEM may have changed. -/
theorem softReset_eq_reset {s : State} (hr : s.rst = false) :
    softReset s = { State.reset with
      turns := (softReset s).turns, rdata := (softReset s).rdata, era := (softReset s).era, draws := (softReset s).draws
      kw := s.kw, gt := s.gt, inMem := s.inMem, outMem := (softReset s).outMem } := by
  cases hb : s.busy with
  | false => rw [softReset_idle hb]; exact resetRegisters_eq_reset hr
  | true => rw [softReset_busy hb]; exact resetRegisters_eq_reset (s := abandonCommand s) hr

theorem softReset_outMem_idle {s : State} (hb : s.busy = false) : (softReset s).outMem = s.outMem := by
  rw [softReset_idle hb, resetRegisters_outMem]

/-- An abandoned command frees no byte from its buffer's end on. -/
theorem read_softReset_outMem_busy {s : State} (hb : s.busy = true) {a : Nat} (ha : bufBytes s ≤ a) :
    Memory.read (softReset s).outMem a = Memory.read s.outMem a := by
  rw [softReset_busy hb, resetRegisters_outMem, abandonCommand_outMem, read_overwrite, if_neg (by omega)]

/-- Settles O52: the write is a soft reset, which restores the registers in both cases and draws new OUT_MEM bytes for
an abandoned command's buffer only. -/
theorem softResetRestoresTheRegisters : Obligations.SoftResetRestoresTheRegisters := by
  unfold Obligations.SoftResetRestoresTheRegisters
  intro s v hr hsrst
  refine ⟨softReset s, ?_, irq_low_of_masked (softReset_irqEn s), softReset_eq_reset hr, softReset_outMem_idle,
    fun hb _ => read_softReset_outMem_busy hb⟩
  rw [busWrite_ctrl hr, writeCtrl_softReset hsrst]

end Sys2Proof.Machine

/-! PROOF. Decode and encode agree (30_encoding.md R90 to R96). -/

namespace Sys2Proof

theorem decode_encode (i : Instr) : decode (encode i) = .ok i := by
  cases i <;> decide

/-- Two words that decode to one command carry that command's fields, which cover the word. -/
theorem decode_inj {w v : Word} {i : Instr} (hw : decode w = .ok i) (hv : decode v = .ok i) : w = v := by
  obtain ⟨hrsv, hn, hop⟩ := decode_fields hw
  obtain ⟨hrsv', hn', hop'⟩ := decode_fields hv
  exact word_of_fields (hrsv.trans hrsv'.symm) (hn.trans hn'.symm) (hop.trans hop'.symm)

/-- Settles O2: the word of a command decodes to it, and no second word does. -/
theorem decodeInvertsEncode : Obligations.DecodeInvertsEncode := by
  unfold Obligations.DecodeInvertsEncode
  exact ⟨decode_encode, fun _ i h => decode_inj (decode_encode i) h⟩

/-- Settles O1: the words of the thirteen commands, and the first rule that each illegal word breaks. -/
theorem writtenWordsDecode : Obligations.WrittenWordsDecode := by
  unfold Obligations.WrittenWordsDecode
  exact ⟨decode_encode .grey, decode_encode .sepia, decode_encode .tint, decode_encode .poster, decode_encode .mosaic,
    decode_encode .convBox, decode_encode .convEdges, decode_encode .convEmboss, decode_encode .convSharpen,
    decode_encode .convMatrix, decode_encode .convMatrixN, decode_encode .gblur, decode_encode .defaults,
    by decide, by decide, by decide, by decide, by decide, by decide⟩

end Sys2Proof

/-! PROOF. The flag registers (10_state.md R32, R33): the words a read of STATUS and of CTRL returns, and what a write
of each changes. -/

namespace Sys2Proof.Machine

/-! ### The words read -/

theorem errCodeField_none {s : State} (h : s.errCode = none) : errCodeField s = 0 := by
  rw [errCodeField, h]

theorem errCodeField_some {s : State} {k : ErrKind} (h : s.errCode = some k) : errCodeField s = errKindCode k := by
  rw [errCodeField, h]

/-- The fields of STATUS in its word: a statement about five flags and four error codes, checked on all of them. -/
theorem statusWord_fields (s : State) :
    (statusWord s).getLsbD 0 = s.busy ∧ (statusWord s).getLsbD 1 = s.done ∧ (statusWord s).getLsbD 2 = s.err ∧
      (statusWord s).getLsbD 3 = false ∧
      (statusWord s).extractLsb' 4 4 = BitVec.ofNat 4 (errCodeField s) ∧
      (statusWord s).getLsbD 8 = s.busyWr ∧ (statusWord s).getLsbD 9 = s.accErr ∧
      (statusWord s).extractLsb' 10 22 = 0 := by
  unfold statusWord errCodeField
  generalize s.busy = busy, s.done = done, s.err = err, s.busyWr = busyWr, s.accErr = accErr
  match s.errCode with
  | none | some .invalidBuffer | some .unknownFilter | some .invalidParameter => decide +revert

theorem ctrlWord_fields (s : State) :
    (ctrlWord s).getLsbD 0 = s.irqEn ∧ (ctrlWord s).extractLsb' 1 31 = 0 := by
  unfold ctrlWord
  cases s.irqEn <;> decide

/-! ### Writes -/

/-- A STATUS write flag by flag: each conditional clear masks its flag. -/
theorem writeStatus_eq (v : Word) (s : State) :
    writeStatus v s = { s with
      done := s.done && !v.getLsbD 1
      err := s.err && !v.getLsbD 2
      errCode := if v.getLsbD 2 then none else s.errCode
      errInfo := if v.getLsbD 2 then 0 else s.errInfo
      busyWr := s.busyWr && !v.getLsbD 8
      accErr := s.accErr && !v.getLsbD 9 } := by
  have done (b : Bool) (s : State) :
      (if b then { s with done := false } else s) = { s with done := s.done && !b } := by cases b <;> simp
  have err (b : Bool) (s : State) : (if b then clearError s else s) = { s with
      err := s.err && !b, errCode := if b then none else s.errCode, errInfo := if b then 0 else s.errInfo } := by
    cases b <;> simp [clearError]
  have busyWr (b : Bool) (s : State) :
      (if b then { s with busyWr := false } else s) = { s with busyWr := s.busyWr && !b } := by cases b <;> simp
  have accErr (b : Bool) (s : State) :
      (if b then { s with accErr := false } else s) = { s with accErr := s.accErr && !b } := by cases b <;> simp
  dsimp only [writeStatus]
  rw [done, err, busyWr, accErr]

/-- Settles O50, from the fields of the two words and the two writes. -/
theorem statusFieldsAndWriteOneToClear : Obligations.StatusFieldsAndWriteOneToClear := by
  unfold Obligations.StatusFieldsAndWriteOneToClear
  refine ⟨fun s hr => ⟨busRead_reg_rdata hr target_status, busRead_reg_rdata hr target_ctrl,
    busRead_reg_rdata hr target_errInfo, busRead_reg_rdata hr target_cmd⟩, fun s => ?fields, fun s v hr hsrst => ?ctrl,
    fun s v hr => ?status⟩
  case fields =>
    obtain ⟨hbusy, hdone, herr, hreserved, hcode, hbusyWr, haccErr, hhigh⟩ := statusWord_fields s
    have code {k : ErrKind} (hk : s.errCode = some k) :
        (statusWord s).extractLsb' 4 4 = BitVec.ofNat 4 (errKindCode k) := by rw [hcode, errCodeField_some hk]
    exact ⟨hbusy, hdone, herr, hreserved, fun hk => by rw [hcode, errCodeField_none hk]; rfl, code, code, code, hbusyWr,
      haccErr, hhigh, ctrlWord_fields s⟩
  case ctrl => rw [busWrite_ctrl hr, writeCtrl_irqEn hsrst]
  case status => rw [busWrite_status hr, writeStatus_eq]

end Sys2Proof.Machine

/-! PROOF. One step: the turn it takes, which turn can start a command, and the invariant that every step keeps
(44_dispatch.md R221 to R225, 10_state.md R33, R34). -/

namespace Sys2Proof.Machine

open Sys2Proof.Safety

/-! ### The turn a step takes -/

theorem engineActive_of {s : State} (hb : s.busy = true) (hr : s.rst = false) : engineActive s = true := by
  rw [engineActive, hb, hr]
  rfl

theorem engineActive_idle {s : State} (hb : s.busy = false) : engineActive s = false := by
  rw [engineActive, hb]
  rfl

/-- With the engine's turn first, a step is that turn on the state without it. -/
theorem step_engine {s : State} {ts : List Turn} (h : s.turns = .engine :: ts) :
    step s = engineTurn { s with turns := ts } := step_cons h

theorem engineTurn_legal {s : State} {i : Instr} (hb : s.busy = true) (hr : s.rst = false)
    (h : decode s.cmd = .ok i) : engineTurn s = exec i s := by
  rw [engineTurn_active (engineActive_of hb hr), runCommand_legal h]

theorem engineTurn_illegal {s : State} {r : Illegal} (hb : s.busy = true) (hr : s.rst = false)
    (h : decode s.cmd = .error r) : engineTurn s = .next (failed .unknownFilter 0x01C s) := by
  rw [engineTurn_active (engineActive_of hb hr), runCommand_illegal h]
  rfl

theorem commandWord_encode (i : Instr) : commandWord 32 (encode i).toNat = encode i := by
  rw [commandWord, Nat.mod_eq_of_lt (encode i).isLt, BitVec.ofNat_toNat, BitVec.setWidth_eq]

/-- Settles O4: an empty schedule and one that begins with the engine both come to the engine's turn. -/
theorem stepRunsTheLatchedCommand : Obligations.StepRunsTheLatchedCommand := by
  unfold Obligations.StepRunsTheLatchedCommand
  refine ⟨fun s i hb hr hi => ⟨fun ht => ?_, fun ts ht => ?_⟩, fun s r hb hr he => ⟨fun ht => ?_, fun ts ht => ?_⟩,
    fun s i => ?_⟩
  · rw [step_nil ht, engineTurn_legal hb hr hi]
  · rw [step_engine ht]
    exact engineTurn_legal hb hr hi
  · rw [step_nil ht, engineTurn_illegal hb hr he]
  · rw [step_engine ht]
    exact engineTurn_illegal hb hr he
  · rw [State.withFetchWord, commandWord_encode, step_engine (ts := s.turns) rfl]
    exact engineTurn_legal rfl rfl (decode_encode i)

/-- Settles O5, by the first turn of the schedule. -/
theorem stepPerformsOneHostTurn : Obligations.StepPerformsOneHostTurn := by
  unfold Obligations.StepPerformsOneHostTurn
  exact fun s ts => ⟨fun _ _ h => step_cons h, fun _ _ _ h => step_cons h, fun _ h => step_cons h⟩

/-- Settles O6: an idle engine leaves the state, on an empty schedule and at its own turn. -/
theorem idleBlockDoesNothing : Obligations.IdleBlockDoesNothing := by
  unfold Obligations.IdleBlockDoesNothing
  refine ⟨rfl, fun s hb => ⟨fun h => ?_, fun ts h => ?_⟩⟩
  · rw [step_nil h, engineTurn_idle (engineActive_idle hb)]
  · rw [step_engine h]
    exact engineTurn_idle (engineActive_idle hb)

/-! ### The start of a command -/

/-- Every CTRL write leaves BUSY as it was or clears it. -/
theorem writeCtrl_busy {v : Word} {s : State} (hb : s.busy = false) : (writeCtrl v s).busy = false := by
  unfold writeCtrl
  split_ifs
  · rfl
  · exact hb

/-- The only host turn that sets BUSY is a CMD write out of reset. -/
theorem takeTurn_starts {turn : Turn} {s t : State} (h : takeTurn turn s = .next t) (hs : s.busy = false)
    (ht : t.busy = true) : ∃ v, turn = .write .b4 0x01C v ∧ s.rst = false ∧ t = startCommand v s := by
  cases turn with
  | read size off =>
    obtain ⟨r, a, d, e⟩ := busRead_frame s size off
    rw [takeTurn, e] at h
    cases h
    simp [hs] at ht
  | write size off v =>
    have e := busWrite_effect s size off v
    injection h with h
    rw [h] at e
    cases e with
    | start hr hb hsize hoff => exact ⟨v, by rw [hsize, hoff], hr, rfl⟩
    | ctrl => rw [writeCtrl_busy hs] at ht; cases ht
    | status => simp [writeStatus_eq, hs] at ht
    | bytes sp => cases sp <;> simp [setMemory, hs] at ht
    | _ => simp [hs] at ht
  | rst level =>
    rw [takeTurn, driveRst] at h
    injection h with h
    split_ifs at h <;> subst h
    · cases ht
    · simp [hs] at ht
  | engine =>
    rw [takeTurn, engineTurn_idle (engineActive_idle hs)] at h
    cases h
    simp [hs] at ht

/-- Settles O7: an idle engine starts nothing, and of the host's turns only a CMD write does. -/
theorem onlyCmdWriteStartsACommand : Obligations.OnlyCmdWriteStartsACommand := by
  unfold Obligations.OnlyCmdWriteStartsACommand
  intro s t h hs ht
  cases hturns : s.turns with
  | nil =>
    rw [step_nil hturns, engineTurn_idle (engineActive_idle hs)] at h
    cases h
    simp [hs] at ht
  | cons turn ts =>
    rw [step_cons hturns] at h
    obtain ⟨v, rfl, hr, rfl⟩ := takeTurn_starts h hs ht
    exact ⟨v, ts, rfl, hr, rfl⟩

/-! ### The invariant on the host's side -/

/-- The invariant does not speak of these fields. -/
theorem invariant_congr {s : State} (h : Invariant s) (turns : List Turn) (rdata : Word) (irqEn busyWr accErr : Bool)
    (width height dataLen : Word) (params : Params) (era draws : Nat) :
    Invariant { s with
      turns := turns, rdata := rdata, irqEn := irqEn, busyWr := busyWr, accErr := accErr, width := width
      height := height, dataLen := dataLen, params := params, era := era, draws := draws } :=
  { h with }

theorem memory_wf {s : State} (h : Invariant s) (sp : Space) :
    Memory.wf (Config.spaceBytes sp) (memory s sp) = true := by
  cases sp
  · exact h.kwWf
  · exact h.gtWf
  · exact h.inWf
  · exact h.outWf

/-- A block with canonical memories that runs nothing and has nothing recorded, as every reset leaves it. -/
theorem invariant_of_no_record {s : State} (hmem : ∀ sp, Memory.wf (Config.spaceBytes sp) (memory s sp) = true)
    (hbusy : s.busy = false) (hdone : s.done = false) (herr : s.err = false) (hcode : s.errCode = none)
    (hinfo : s.errInfo = 0) : Invariant s where
  kwWf := hmem .kw
  gtWf := hmem .gt
  inWf := hmem .inMem
  outWf := hmem .outMem
  exclusive := by simp [hbusy, hdone, herr]
  codeIffErr := by simp [hcode, herr]
  infoZero _ := hinfo
  unknownIff h := by simp [herr] at h
  doneLegal h := by simp [hdone] at h
  heldIdle _ := ⟨hbusy, hdone, herr⟩

theorem invariant_hardReset (level : Bool) (s : State) : Invariant (hardReset level s) :=
  invariant_of_no_record (fun sp => by cases sp <;> rfl) rfl rfl rfl rfl rfl

/-- Settles O54: nothing is recorded and the memories are empty. -/
theorem resetMeetsTheInvariant : Obligations.ResetMeetsTheInvariant := by
  unfold Obligations.ResetMeetsTheInvariant
  exact invariant_of_no_record (fun sp => by cases sp <;> rfl) rfl rfl rfl rfl rfl

theorem invariant_resetRegisters {s : State} (hmem : ∀ sp, Memory.wf (Config.spaceBytes sp) (memory s sp) = true) :
    Invariant (resetRegisters s) :=
  invariant_of_no_record (fun sp => by cases sp <;> exact hmem _) rfl rfl rfl rfl rfl

/-- An abandoned command frees bytes inside OUT_MEM only. -/
theorem memory_wf_abandonCommand {s : State} (h : Invariant s) (sp : Space) :
    Memory.wf (Config.spaceBytes sp) (memory (abandonCommand s) sp) = true := by
  cases sp with
  | outMem => exact wf_overwrite _ h.outWf (min_le_right _ _)
  | _ => exact memory_wf h _

theorem invariant_softReset {s : State} (h : Invariant s) : Invariant (softReset s) := by
  cases hb : s.busy with
  | false => rw [softReset_idle hb]; exact invariant_resetRegisters (memory_wf h)
  | true => rw [softReset_busy hb]; exact invariant_resetRegisters (memory_wf_abandonCommand h)

theorem invariant_writeCtrl {s : State} (h : Invariant s) (v : Word) : Invariant (writeCtrl v s) := by
  unfold writeCtrl
  split_ifs
  · exact invariant_softReset h
  · exact invariant_congr h ..

/-- Clearing DONE, ERR or both keeps the record consistent: ERR takes ERR_CODE and ERR_INFO with it. -/
theorem invariant_writeStatus {s : State} (h : Invariant s) (v : Word) : Invariant (writeStatus v s) := by
  rw [writeStatus_eq]
  refine { h with exclusive := ?_, codeIffErr := ?_, infoZero := ?_, unknownIff := ?_, doneLegal := ?_, heldIdle := ?_ }
  · have hdone := Bool.toNat_le_toNat (Bool.and_le_left s.done (!v.getLsbD 1))
    have herr := Bool.toNat_le_toNat (Bool.and_le_left s.err (!v.getLsbD 2))
    exact le_trans (by dsimp only; omega) h.exclusive
  · cases v.getLsbD 2 <;> simp [h.codeIffErr]
  · cases v.getLsbD 2 <;> [simpa using h.infoZero; simp]
  · cases v.getLsbD 2 <;> [simpa using h.unknownIff; simp]
  · cases v.getLsbD 1 <;> [simpa using h.doneLegal; simp]
  · intro hr
    obtain ⟨hbusy, hdone, herr⟩ := h.heldIdle hr
    exact ⟨hbusy, by simp [hdone], by simp [herr]⟩

/-- A command start clears the record, and only an unheld block starts one. -/
theorem invariant_startCommand {s : State} (h : Invariant s) (hr : s.rst = false) (w : Word) :
    Invariant (startCommand w s) :=
  { h with
    exclusive := by simp
    codeIffErr := by simp
    infoZero := fun _ => rfl
    unknownIff := nofun
    doneLegal := nofun
    heldIdle := by simp [hr] }

theorem invariant_setMemory {s : State} (h : Invariant s) (sp : Space) {m : Memory}
    (hm : Memory.wf (Config.spaceBytes sp) m = true) : Invariant (setMemory s sp m) := by
  cases sp
  · exact { h with kwWf := hm }
  · exact { h with gtWf := hm }
  · exact { h with inWf := hm }
  · exact { h with outWf := hm }

theorem invariant_of_writeEffect {s t : State} {size : Size} {off : BitVec 22} {v : Word} (h : Invariant s)
    (e : WriteEffect s size off v t) : Invariant t := by
  cases e with
  | ignored => exact h
  | unsupported => exact invariant_congr h ..
  | dropped => exact invariant_congr h ..
  | start hr => exact invariant_startCommand h hr v
  | ctrl => exact invariant_writeCtrl h v
  | status => exact invariant_writeStatus h v
  | register => exact invariant_congr h ..
  | bytes sp a n _ _ hfit => exact invariant_setMemory h sp (wf_storeLE n (memory_wf h sp) hfit)

/-! ### The invariant on the engine's side -/

theorem legalWord_of_decode {w : Word} {i : Instr} (h : decode w = .ok i) : legalWord w = true :=
  (decode_ok_iff_wellFormed w).1 ⟨i, h⟩

theorem legalWord_of_decode_error {w : Word} {r : Illegal} (h : decode w = .error r) : legalWord w = false := by
  rw [legalWord, ← Bool.not_eq_true, ← decode_ok_iff_wellFormed]
  exact (decode_error_iff w).1 ⟨r, h⟩

/-- While a command runs nothing is recorded. -/
theorem no_record_of_busy {s : State} (h : Invariant s) (hb : s.busy = true) :
    s.done = false ∧ s.err = false ∧ s.errCode = none := by
  have hexcl := h.exclusive
  rw [hb, Bool.toNat_true] at hexcl
  have hdone : s.done = false := Bool.toNat_eq_zero.1 (by omega)
  have herr : s.err = false := Bool.toNat_eq_zero.1 (by omega)
  exact ⟨hdone, herr, h.codeIffErr.2 herr⟩

/-- An error completion keeps the invariant when it records UnknownFilter exactly for an illegal word. -/
theorem invariant_raiseError {s : State} (h : Invariant s) (hdone : s.done = false) (hr : s.rst = false) {k : ErrKind}
    (hk : k = .unknownFilter ↔ legalWord s.cmd = false) (info : Word) : Invariant (raiseError k info s) :=
  { h with
    exclusive := by simp [hdone]
    codeIffErr := by simp
    infoZero := nofun
    unknownIff := fun _ => by simp [hk]
    doneLegal := by simp [hdone]
    heldIdle := by simp [hr] }

/-- A successful completion of a legal word keeps the invariant. -/
theorem invariant_completeCommand {s : State} (h : Invariant s) (herr : s.err = false) (hr : s.rst = false)
    (hlegal : legalWord s.cmd = true) : Invariant (completeCommand s) :=
  { h with
    exclusive := by simp [herr]
    doneLegal := fun _ => hlegal
    heldIdle := by simp [hr] }

/-- A buffer that fits lies inside OUT_MEM. -/
theorem invariant_writeOutput {s : State} (h : Invariant s) (hb : BufferFits s) (lane : Nat → Nat → Nat → Nat) :
    Invariant (writeOutput s lane) :=
  { h with outWf := wf_overwrite _ h.outWf hb.2 }

theorem invariant_runCommand {s t : State} (h : Invariant s) (hb : s.busy = true) (hr : s.rst = false)
    (ht : runCommand s = .next t) : Invariant t := by
  obtain ⟨hdone, herr, hcode⟩ := no_record_of_busy h hb
  cases hd : decode s.cmd with
  | error r =>
    rw [runCommand_illegal hd] at ht
    cases ht
    exact invariant_raiseError h hdone hr (by simp [legalWord_of_decode_error hd]) _
  | ok i =>
    have hlegal := legalWord_of_decode hd
    rw [runCommand_legal hd] at ht
    have hkind := exec_kind hcode ht
    rcases exec_next_cases ht with ⟨k, info, rfl⟩ | ⟨-, hfits, -, lane, rfl⟩ | ⟨-, rfl⟩
    · exact invariant_raiseError h hdone hr (by simpa [hlegal] using hkind) info
    · exact invariant_completeCommand (invariant_writeOutput h hfits lane) herr hr hlegal
    · exact invariant_completeCommand (invariant_congr h ..) herr hr hlegal

theorem invariant_engineTurn {s t : State} (h : Invariant s) (ht : engineTurn s = .next t) : Invariant t := by
  cases ha : engineActive s with
  | false =>
    rw [engineTurn_idle ha] at ht
    cases ht
    exact h
  | true =>
    rw [engineTurn_active ha] at ht
    obtain ⟨hb, hr⟩ : s.busy = true ∧ s.rst = false := by simpa [engineActive] using ha
    exact invariant_runCommand h hb hr ht

theorem invariant_takeTurn {turn : Turn} {s t : State} (h : Invariant s) (ht : takeTurn turn s = .next t) :
    Invariant t := by
  cases turn with
  | read size off =>
    obtain ⟨r, a, d, e⟩ := busRead_frame s size off
    rw [takeTurn, e] at ht
    cases ht
    exact invariant_congr h ..
  | write size off v =>
    injection ht with ht
    exact invariant_of_writeEffect h (ht ▸ busWrite_effect s size off v)
  | rst level =>
    injection ht with ht
    rw [← ht, driveRst]
    split_ifs
    · exact invariant_hardReset level s
    · exact h
  | engine => exact invariant_engineTurn h ht

/-- Settles O55, turn by turn: the schedule is no part of the invariant. -/
theorem stepKeepsTheInvariant : Obligations.StepKeepsTheInvariant := by
  unfold Obligations.StepKeepsTheInvariant
  intro s t h ht
  cases hturns : s.turns with
  | nil => exact invariant_engineTurn h (step_nil hturns ▸ ht)
  | cons turn ts => exact invariant_takeTurn (invariant_congr h ..) (step_cons hturns ▸ ht)

end Sys2Proof.Machine

/-! PROOF. Whole runs (70_reset_and_hazards.md R290, R297): a running command and its operands through the host's turns,
the outcome after any number of polls, and the end of every started command. -/

namespace Sys2Proof.Machine

open Sys2Proof.Safety

/-! ### Host turns while a command runs -/

/-- Two states in which the same command runs on the same operands. -/
def SameRun (s t : State) : Prop :=
  t.busy = s.busy ∧ t.cmd = s.cmd ∧ t.width = s.width ∧ t.height = s.height ∧ t.dataLen = s.dataLen ∧
    t.params = s.params ∧ t.kw = s.kw ∧ t.gt = s.gt ∧ t.inMem = s.inMem ∧ t.outMem = s.outMem

theorem sameRun_refl (s : State) : SameRun s s := ⟨rfl, rfl, rfl, rfl, rfl, rfl, rfl, rfl, rfl, rfl⟩

theorem sameRun_busRead (s : State) (size : Size) (off : BitVec 22) : SameRun s (busRead s size off) := by
  obtain ⟨r, a, d, e⟩ := busRead_frame s size off
  rw [e]
  exact sameRun_refl s

/-- A write to a busy block, a soft reset apart, only changes flags. -/
theorem sameRun_of_writeEffect {s t : State} {size : Size} {off : BitVec 22} {v : Word} (hb : s.busy = true)
    (hreset : resetsBlock s (.write size off v) = false) (e : WriteEffect s size off v t) : SameRun s t := by
  have busy : s.busy ≠ false := by simp [hb]
  cases e with
  | ignored | unsupported | dropped => exact sameRun_refl s
  | start _ idle | register _ _ _ _ _ idle | bytes _ _ _ _ idle => exact absurd idle busy
  | ctrl hr hsize hoff =>
    subst hsize hoff
    have hsrst : v.getLsbD 1 = false := by simpa [resetsBlock, hr] using hreset
    rw [writeCtrl_irqEn hsrst]
    exact sameRun_refl s
  | status =>
    rw [writeStatus_eq]
    exact sameRun_refl s

theorem sameRun_takeTurn {turn : Turn} {s t : State} (hb : s.busy = true) (hengine : turn ≠ .engine)
    (hreset : resetsBlock s turn = false) (h : takeTurn turn s = .next t) : SameRun s t := by
  cases turn with
  | read size off =>
    cases h
    exact sameRun_busRead s size off
  | write size off v =>
    cases h
    exact sameRun_of_writeEffect hb hreset (busWrite_effect s size off v)
  | rst level =>
    have hlow : (s.rst || level) = false := hreset
    rw [takeTurn, driveRst, hlow] at h
    cases h
    exact sameRun_refl s
  | engine => exact absurd rfl hengine

/-- Settles O56: every host turn but a reset leaves the same command running on the same operands. -/
theorem runningCommandKeepsItsOperands : Obligations.RunningCommandKeepsItsOperands := by
  unfold Obligations.RunningCommandKeepsItsOperands
  intro s t turn hb hengine hreset h
  obtain ⟨hbusy, hoperands⟩ := sameRun_takeTurn hb hengine hreset h
  exact ⟨hbusy.trans hb, hoperands⟩

/-! ### Polls -/

theorem busRead_poll {s : State} (hr : s.rst = false) : busRead s .b4 0x014 = { s with rdata := statusWord s } :=
  busRead_reg hr target_status

/-- No command reads or changes the read data. -/
theorem exec_rdata (i : Instr) {s t : State} (r : Word) (h : exec i s = .next t) :
    exec i { s with rdata := r } = .next { t with rdata := r } := by
  have a : Agree s { s with rdata := r } := ⟨rfl, rfl, rfl, rfl, rfl, rfl, rfl⟩
  rcases sameEnd_of_agree a i with ⟨e, he, he'⟩ | ⟨-, lane, hc, hc'⟩ | rfl
  · obtain ⟨k, info, rfl, rfl⟩ := stopCommand_next (he.symm.trans h)
    exact he'
  · rw [hc] at h
    cases h
    exact hc'
  · cases h
    rfl

theorem engineTurn_rdata {s t : State} (r : Word) (h : engineTurn s = .next t) (hb : s.busy = true)
    (hr : s.rst = false) : engineTurn { s with rdata := r } = .next { t with rdata := r } := by
  cases hd : decode s.cmd with
  | ok i =>
    rw [engineTurn_legal hb hr hd] at h
    rw [engineTurn_legal (s := { s with rdata := r }) hb hr hd]
    exact exec_rdata i r h
  | error e =>
    rw [engineTurn_illegal hb hr hd] at h
    rw [engineTurn_illegal (s := { s with rdata := r }) hb hr hd]
    cases h
    rfl

/-- A command keeps the read data. -/
theorem engineTurn_keeps_rdata {s t : State} (h : engineTurn s = .next t) : t.rdata = s.rdata := by
  cases ha : engineActive s with
  | false =>
    rw [engineTurn_idle ha] at h
    cases h
    rfl
  | true =>
    rw [engineTurn_active ha] at h
    obtain ⟨-, -, hrdata, -⟩ := runCommand_flags h
    exact hrdata

/-- `n` polls and then the engine: the engine's result, with the read data of the last poll. -/
theorem run_polls (n : Nat) : ∀ {s t : State}, s.busy = true → s.rst = false → s.turns = [] → engineTurn s = .next t →
    Host.Core.run core (n + 1) { s with turns := List.replicate n poll }
      = .next { t with rdata := if n = 0 then s.rdata else statusWord s } := by
  induction n with
  | zero =>
    intro s t hb hr hnil h
    have hs : { s with turns := List.replicate 0 poll } = s := by rw [List.replicate_zero, ← hnil]
    rw [hs, run_next 0 ((step_nil hnil).trans h), run_zero, if_pos rfl, ← engineTurn_keeps_rdata h]
  | succ n ih =>
    intro s t hb hr hnil h
    have hstep : step { s with turns := List.replicate (n + 1) poll }
        = .next { s with rdata := statusWord s, turns := List.replicate n poll } := by
      rw [step_cons (t := poll) (ts := List.replicate n poll) List.replicate_succ, poll, takeTurn]
      exact congrArg _ (busRead_poll (s := { s with turns := List.replicate n poll }) hr)
    have hrest := ih (s := { s with rdata := statusWord s }) hb hr hnil (engineTurn_rdata (statusWord s) h hb hr)
    rw [run_next (n + 1) hstep, if_neg (Nat.succ_ne_zero n)]
    refine hrest.trans ?_
    split_ifs <;> rfl

/-- Settles O57, by induction on the number of polls. -/
theorem pollsDoNotChangeTheOutcome : Obligations.PollsDoNotChangeTheOutcome := by
  unfold Obligations.PollsDoNotChangeTheOutcome
  exact fun n s t hb hr hnil h => run_polls n hb hr hnil ((step_nil hnil).symm.trans h)

/-! ### The end of every run -/

/-- After the engine's turn nothing runs: an engine that does not move is idle or held in reset, which keeps it idle. -/
theorem busy_after_engineTurn {s t : State} (hi : Invariant s) (h : engineTurn s = .next t) : t.busy = false := by
  cases ha : engineActive s with
  | false =>
    rw [engineTurn_idle ha] at h
    cases h
    cases hr : s.rst with
    | false => simpa [engineActive, hr] using ha
    | true => exact (hi.heldIdle hr).1
  | true =>
    rw [engineTurn_active ha] at h
    obtain ⟨-, -, -, -, hbusy, -⟩ := runCommand_flags h
    exact hbusy

/-- Taking the turns one by one keeps the invariant, and the step after the last one is the engine's. -/
theorem run_schedule (ts : List Turn) : ∀ {s t : State}, s.turns = ts → Invariant s →
    Host.Core.run core (ts.length + 1) s = .next t → t.busy = false ∧ t.turns = [] := by
  induction ts with
  | nil =>
    intro s t hts hi h
    obtain ⟨u, hstep, hu⟩ := run_cases h
    cases hu
    have hengine : engineTurn s = .next t := (step_nil hts).symm.trans hstep
    exact ⟨busy_after_engineTurn hi hengine, (takeTurn_turns (turn := .engine) hengine).trans hts⟩
  | cons turn ts ih =>
    intro s t hts hi h
    obtain ⟨u, hstep, hu⟩ := run_cases h
    have hturn := (step_cons hts).symm.trans hstep
    exact ih (takeTurn_turns hturn) (stepKeepsTheInvariant s u hi hstep) hu

/-- Settles O58, by induction on the schedule. -/
theorem everyStartedCommandEnds : Obligations.EveryStartedCommandEnds := by
  unfold Obligations.EveryStartedCommandEnds
  exact fun s t hi h => run_schedule s.turns rfl hi h

end Sys2Proof.Machine

/-! PROOF. Both resets as the host sees them (70_reset_and_hazards.md R280, R283), and reads without side effect
(20_memory.md R69, R77). -/

namespace Sys2Proof.Machine

open Sys2Proof.Safety

/-! ### Hard reset -/

theorem irq_held {s : State} (hr : s.rst = true) : irq s = false := by
  rw [irq, hr]
  rfl

theorem engineActive_held {s : State} (hr : s.rst = true) : engineActive s = false := by
  rw [engineActive, hr, Bool.not_true, Bool.and_false]

/-- `rst` driven high and low again resets twice. -/
theorem driveRst_pulse (s : State) : driveRst (driveRst s true) false = hardReset false (hardReset true s) := by
  rw [driveRst_high, driveRst_of_rst (hardReset_rst true s)]

/-- Settles O53: accesses and the engine are shut off by the level alone, and the fall leaves the second of two hard
resets. -/
theorem hardResetHoldsAndClears : Obligations.HardResetHoldsAndClears := by
  unfold Obligations.HardResetHoldsAndClears
  refine ⟨fun s size off v hr => ⟨busWrite_rst hr size off v, busRead_rst hr size off, irq_held hr, fun ts ht => ?_⟩,
    fun s => ⟨?_, ?_, ?_⟩⟩
  · rw [step_engine ht]
    exact engineTurn_idle (engineActive_held hr)
  · rw [driveRst_pulse]
    rfl
  · rw [driveRst_high, hardReset_rst]
  · rw [driveRst_high]
    rfl

/-- Settles O49: the whole map read in the one state after reset. -/
theorem resetRegisterMap : Obligations.ResetRegisterMap := by
  unfold Obligations.ResetRegisterMap
  decide

/-! ### Soft reset -/

@[simp] theorem softReset_rdata (s : State) : (softReset s).rdata = s.rdata := by
  cases hb : s.busy with
  | false => rw [softReset_idle hb, resetRegisters_rdata]
  | true => rw [softReset_busy hb, resetRegisters_rdata, abandonCommand_rdata]

@[simp] theorem softReset_turns (s : State) : (softReset s).turns = s.turns := by
  cases hb : s.busy with
  | false => rw [softReset_idle hb, resetRegisters_turns]
  | true => rw [softReset_busy hb, resetRegisters_turns, abandonCommand_turns]

@[simp] theorem softReset_era (s : State) : (softReset s).era = s.era := by
  cases hb : s.busy with
  | false => rw [softReset_idle hb, resetRegisters_era]
  | true => rw [softReset_busy hb, resetRegisters_era, abandonCommand_era]

/-- A soft reset keeps every memory but the OUT_MEM of an abandoned command. -/
theorem memory_softReset {s : State} {sp : Space} (h : sp ≠ .outMem ∨ s.busy = false) :
    memory (softReset s) sp = memory s sp := by
  cases hb : s.busy with
  | false => rw [softReset_idle hb]; cases sp <;> rfl
  | true =>
    rw [softReset_busy hb]
    cases sp with
    | outMem => simp [hb] at h
    | _ => rfl

/-- Settles O60: what the host reads of a byte is its memory and, where unwritten, the era. -/
theorem softResetKeepsWhatTheHostReads : Obligations.SoftResetKeepsWhatTheHostReads := by
  unfold Obligations.SoftResetKeepsWhatTheHostReads
  intro s v hr hsrst
  rw [busWrite_ctrl hr, writeCtrl_softReset hsrst]
  refine ⟨fun sp a h => ?_, softReset_rdata s, softReset_turns s⟩
  rw [hostByte, hostByte, memory_softReset h, softReset_era]

/-! ### Reads -/

/-- What a register reads as does not depend on the last read data. -/
theorem readReg_rdata (s : State) (r : Word) (loc : RegLoc) : readReg { s with rdata := r } loc = readReg s loc := by
  cases loc with
  | word w => cases w <;> rfl
  | half w hi => cases w <;> rfl
  | weight sp a => cases sp <;> rfl
  | _ => rfl

/-- STATUS is the only register that shows BUSY. -/
theorem readReg_busy (s : State) (b : Bool) {loc : RegLoc} (h : loc ≠ .status) :
    readReg { s with busy := b } loc = readReg s loc := by
  cases loc with
  | word w => cases w <;> rfl
  | half w hi => cases w <;> rfl
  | weight sp a => cases sp <;> rfl
  | status => exact absurd rfl h
  | _ => rfl

/-- Repeating a register read returns the same data. -/
theorem busRead_reg_again {s : State} {size : Size} {off : BitVec 22} {loc : RegLoc} (hr : s.rst = false)
    (ht : target size off = .reg loc) : (busRead (busRead s size off) size off).rdata = (busRead s size off).rdata := by
  rw [busRead_reg hr ht]
  exact (busRead_reg_rdata (s := { s with rdata := readReg s loc }) hr ht).trans (readReg_rdata s _ loc)

theorem busRead_reg_busy {s : State} {size : Size} {off : BitVec 22} {loc : RegLoc} (hr : s.rst = false)
    (ht : target size off = .reg loc) (hloc : loc ≠ .status) (b : Bool) :
    (busRead s size off).rdata = (busRead { s with busy := b } size off).rdata := by
  rw [busRead_reg_rdata hr ht, busRead_reg_rdata (s := { s with busy := b }) hr ht, readReg_busy s b hloc]

theorem hostByte_rdata (s : State) (r : Word) (sp : Space) : hostByte { s with rdata := r } sp = hostByte s sp := by
  cases sp <;> rfl

theorem hostByte_busy (s : State) (b : Bool) (sp : Space) : hostByte { s with busy := b } sp = hostByte s sp := by
  cases sp <;> rfl

/-- A window read shows the memory's bytes unless it reads OUT_MEM while a command runs. -/
theorem busRead_window {s : State} {size : Size} {off : BitVec 22} {sp : Space} {a : Nat} (hr : s.rst = false)
    (ht : target size off = .pixel sp a) (h : s.busy = false ∨ sp ≠ .outMem) :
    busRead s size off = { s with rdata := BitVec.ofNat 32 (loadLE (hostByte s sp) a (sizeBytes size)) } := by
  rw [busRead_pixel hr ht, readPixels, if_neg]
  rintro ⟨hb, hsp⟩
  simp [hb, hsp] at h

theorem busRead_window_rdata {s : State} {size : Size} {off : BitVec 22} {sp : Space} {a : Nat} (hr : s.rst = false)
    (ht : target size off = .pixel sp a) (h : s.busy = false ∨ sp ≠ .outMem) :
    (busRead s size off).rdata = BitVec.ofNat 32 (loadLE (hostByte s sp) a (sizeBytes size)) := by
  rw [busRead_window hr ht h]

theorem busRead_window_again {s : State} {size : Size} {off : BitVec 22} {sp : Space} {a : Nat} (hr : s.rst = false)
    (ht : target size off = .pixel sp a) (h : s.busy = false ∨ sp ≠ .outMem) :
    (busRead (busRead s size off) size off).rdata = (busRead s size off).rdata := by
  have again (r : Word) := busRead_window_rdata (s := { s with rdata := r }) hr ht h
  rw [busRead_window hr ht h, again, hostByte_rdata s]

theorem busRead_window_idle {s : State} {size : Size} {off : BitVec 22} {sp : Space} {a : Nat} (hr : s.rst = false)
    (ht : target size off = .pixel sp a) (h : s.busy = false ∨ sp ≠ .outMem) :
    (busRead s size off).rdata = (busRead { s with busy := false } size off).rdata := by
  rw [busRead_window_rdata hr ht h, busRead_window_rdata (s := { s with busy := false }) hr ht (.inl rfl),
    hostByte_busy s false sp]

/-- A read of OUT_MEM while a command runs is a draw. -/
theorem busRead_drawn {s : State} {size : Size} {off : BitVec 22} {a : Nat} (hr : s.rst = false) (hb : s.busy = true)
    (ht : target size off = .pixel .outMem a) : busRead s size off = readDrawn s a (sizeBytes size) := by
  rw [busRead_pixel hr ht, readPixels, if_pos ⟨hb, rfl⟩]

/-- Settles O48, for a register and for a window: each read is the current value of what it reaches. -/
theorem readsHaveNoSideEffects : Obligations.ReadsHaveNoSideEffects := by
  unfold Obligations.ReadsHaveNoSideEffects
  intro s size off hr hs
  refine ⟨fun hcur => ?current, fun hb hge => ?drawn⟩
  case current =>
    by_cases hlt : off.toNat < 0x100000
    · obtain ⟨-, h4, ht⟩ := target_reg hs hlt
      obtain ⟨-, -, hstatus, -⟩ := regLoc_unique h4
      refine ⟨by rw [busRead_reg hr ht], busRead_reg_again hr ht, fun hoff => busRead_reg_busy hr ht ?_ false,
        fun hge => absurd hlt (by omega)⟩
      exact fun hloc => hoff (BitVec.eq_of_toNat_eq (hstatus hloc))
    · obtain ⟨ht, -⟩ := target_pixel hs (by omega)
      have hsp : s.busy = false ∨ windowSpace off ≠ .outMem := hcur.imp_right fun h => by simp [windowSpace, h]
      refine ⟨by rw [busRead_window hr ht hsp], busRead_window_again hr ht hsp,
        fun _ => busRead_window_idle hr ht hsp, fun _ k hk => ?_⟩
      rw [busRead_window_rdata hr ht hsp]
      exact ofNat_loadLE_byte (sizeBytes_le size).2 _ _ _ hk
  case drawn =>
    obtain ⟨ht, -⟩ := target_pixel hs (by omega)
    rw [windowSpace, if_neg (by omega)] at ht
    exact ⟨_, busRead_drawn hr hb ht⟩

end Sys2Proof.Machine

/-! PROOF. The data registers (20_memory.md R65, R72): what stands at each offset of the map, and that a write changes
the register it names and no other. -/

namespace Sys2Proof.Machine

open Sys2Proof.Safety

/-! ### What stands at the offsets -/

theorem target_width : target .b4 0x020 = .reg (.word .width) := by decide
theorem target_height : target .b4 0x024 = .reg (.word .height) := by decide
theorem target_dataLen : target .b4 0x028 = .reg (.word .dataLen) := by decide
theorem target_ksize : target .b4 0x02C = .reg (.word .ksize) := by decide
theorem target_glen : target .b4 0x030 = .reg (.word .glen) := by decide
theorem target_posterLevels : target .b4 0x034 = .reg (.word .posterLevels) := by decide
theorem target_mosaicSize : target .b4 0x038 = .reg (.word .mosaicSize) := by decide
theorem target_tintHex0 : target .b4 0x040 = .reg (.word .tintHex0) := by decide
theorem target_tintHex1 : target .b4 0x044 = .reg (.word .tintHex1) := by decide

/-- The two halves of a 64-bit register stand at its offset and 4 above. -/
theorem target_f64 (r : F64Reg) :
    target .b4 (BitVec.ofNat 22 (f64Offset r)) = .reg (.half r false) ∧
      target .b4 (BitVec.ofNat 22 (f64Offset r + 4)) = .reg (.half r true) := by
  cases r with
  | amount i => decide +revert
  | lumCoef i => decide +revert
  | sepCoef i => decide +revert

/-- KW and GT stand from their bases on. -/
theorem regLoc_kw {off : Nat} (h1 : 0x400 ≤ off) (h2 : off < 0x400 + 8 * 81) :
    regLoc off = .weight .kw (off - 0x400) := by
  rcases regLoc_cases off with h | ⟨_, _, -, h⟩ | ⟨-, -, h⟩ | h | h
  · omega
  · omega
  · exact h
  · omega
  · omega

theorem regLoc_gt {off : Nat} (h1 : 0x800 ≤ off) (h2 : off < 0x800 + 8 * 255) :
    regLoc off = .weight .gt (off - 0x800) := by
  rcases regLoc_cases off with h | ⟨_, _, -, h⟩ | h | ⟨-, -, h⟩ | h
  · omega
  · omega
  · omega
  · exact h
  · omega

theorem lowRegLoc_ne_weight (off : Nat) (sp : Space) (a : Nat) : lowRegLoc off ≠ .weight sp a := by
  unfold lowRegLoc
  split <;> nofun

/-- The offset of byte 0 of a weight memory (10_state.md R37, R38). -/
def weightBase : Space → Nat
  | .kw => 0x400
  | _ => 0x800

/-- A weight location is in KW or GT and determines its offset. -/
theorem regLoc_weight {off : Nat} {sp : Space} {a : Nat} (h : regLoc off = .weight sp a) :
    (sp = .kw ∨ sp = .gt) ∧ off = weightBase sp + a := by
  rcases regLoc_cases off with ⟨-, e⟩ | ⟨_, _, e, -⟩ | ⟨h1, h2, e⟩ | ⟨h1, h2, e⟩ | ⟨e, -⟩
  · exact absurd (e.symm.trans h) (lowRegLoc_ne_weight off sp a)
  all_goals rw [e] at h; cases h
  · exact ⟨.inl rfl, (Nat.add_sub_cancel' h1).symm⟩
  · exact ⟨.inr rfl, (Nat.add_sub_cancel' h1).symm⟩

/-- No data location stands at two offsets. -/
theorem regLoc_inj {off off' : Nat} (h4 : off % 4 = 0) (h4' : off' % 4 = 0) (hd : (regLoc off).isData = true)
    (h : regLoc off' = regLoc off) : off' = off := by
  cases hl : regLoc off with
  | word r => rw [regLoc_word hl h4, regLoc_word (h.trans hl) h4']
  | half r hi => rw [regLoc_half hl h4, regLoc_half (h.trans hl) h4']
  | weight sp a =>
    rw [(regLoc_weight hl).2, (regLoc_weight (h.trans hl)).2]
  | _ => rw [hl] at hd; cases hd

/-! ### Reading and writing them -/

/-- A 32-bit register stands where the map has it. -/
theorem registerAt_word {s : State} {off : BitVec 22} {r : WordReg} (hr : s.rst = false)
    (ht : target .b4 off = .reg (.word r)) : RegisterAt s off (getWord s r) (setWord s r) := by
  refine ⟨busRead_reg_rdata hr ht, fun v hb => ?_⟩
  rw [busWrite_reg hr ht, writeReg, whenIdle_idle hb]

theorem registerAt_half {s : State} {off : BitVec 22} {r : F64Reg} {hi : Bool} (hr : s.rst = false)
    (ht : target .b4 off = .reg (.half r hi)) :
    RegisterAt s off (getHalf hi (getF64 s r)) (fun v => setF64 s r (setHalf hi (getF64 s r) v)) := by
  refine ⟨busRead_reg_rdata hr ht, fun v hb => ?_⟩
  rw [busWrite_reg hr ht, writeReg, whenIdle_idle hb]

theorem halvesAt_f64 {s : State} (hr : s.rst = false) (r : F64Reg) :
    HalvesAt s (f64Offset r) (getF64 s r) (setF64 s r) :=
  ⟨registerAt_half hr (target_f64 r).1, registerAt_half hr (target_f64 r).2⟩

theorem vector10_toList (v : Vector F64 10) :
    v.toList = [v[0], v[1], v[2], v[3], v[4], v[5], v[6], v[7], v[8], v[9]] := by
  apply List.ext_getElem
  · simp
  · intro i h1 h2
    have : i < 10 := by simpa using h1
    interval_cases i <;> simp

/-- The amounts stand in the order of their table. -/
theorem map_amountReg (p : Params) :
    ([.grey, .sepia, .tint, .poster, .mosaic, .box, .edges, .emboss, .sharpen, .matrix] : List Amount).map (amountReg p)
      = p.amounts.toList := by
  rw [vector10_toList]
  rfl

/-! ### Weight memories -/

theorem busRead_weight_byte {s : State} {off : BitVec 22} {sp : Space} {a k : Nat} {b : Byte} (hr : s.rst = false)
    (ht : target .b4 off = .reg (.weight sp a)) (hk : k < 4) (hb : Memory.read (memory s sp) (a + k) = some b) :
    (busRead s .b4 off).rdata.extractLsb' (8 * k) 8 = b := by
  rw [busRead_reg_rdata hr ht, readReg, ofNat_loadLE_byte le_rfl _ _ _ hk, hostByte_written hb]

theorem busWrite_weight {s : State} {off : BitVec 22} {sp : Space} {a : Nat} (hr : s.rst = false) (hb : s.busy = false)
    (ht : target .b4 off = .reg (.weight sp a)) (v : Word) :
    busWrite s .b4 off v = setMemory s sp (storeLE (memory s sp) a 4 v.toNat) := by
  rw [busWrite_reg hr ht, writeReg, whenIdle_idle hb]

/-- The number an append stands for, in place values. -/
theorem toNat_append_word (hi lo : Word) : (hi ++ lo).toNat = hi.toNat * 2 ^ 32 + lo.toNat := by
  rw [BitVec.toNat_append, ← Nat.shiftLeft_add_eq_or_of_lt lo.isLt, Nat.shiftLeft_eq]

/-- The bytes of an entry after its two halves were stored are those of the 64-bit pattern, lowest first. -/
theorem read_store_halves (m : Memory) (a : Nat) (lo hi : Word) {x : Nat} (h1 : a ≤ x) (h2 : x < a + 8) :
    Memory.read (storeLE (storeLE m a 4 lo.toNat) (a + 4) 4 hi.toNat) x
      = some (BitVec.ofNat 8 ((hi ++ lo).toNat / 256 ^ (x - a))) := by
  obtain ⟨k, rfl⟩ := Nat.exists_eq_add_of_le h1
  have hlo := lo.isLt
  rw [read_storeLE, read_storeLE, toNat_append_word, Nat.add_sub_cancel_left]
  by_cases hk : k < 4
  · rw [if_neg (by omega), if_pos (by omega), Option.some_inj]
    apply BitVec.eq_of_toNat_eq
    rw [BitVec.toNat_ofNat, BitVec.toNat_ofNat]
    interval_cases k <;> omega
  · rw [if_pos (by omega), Option.some_inj, show a + k - (a + 4) = k - 4 by omega]
    apply BitVec.eq_of_toNat_eq
    rw [BitVec.toNat_ofNat, BitVec.toNat_ofNat]
    have hk8 : k < 8 := by omega
    interval_cases k <;> omega

/-- An entry whose eight bytes are those of a pattern is written and holds it. -/
theorem entry_of_bytes {m : Memory} {i : Nat} {b : F64}
    (h : ∀ x, 8 * i ≤ x → x < 8 * i + 8 → Memory.read m x = some (BitVec.ofNat 8 (b.toNat / 256 ^ (x - 8 * i)))) :
    entryWritten m i = true ∧ entryPattern m i = b := by
  have hw : (loadWritten m (8 * i) 8).isSome = true :=
    (loadWritten_isSome 8 m (8 * i)).2 fun x h1 h2 => by rw [h x h1 h2, Option.isSome_some]
  refine ⟨hw, ?_⟩
  obtain ⟨v, hv⟩ := Option.isSome_iff_exists.1 hw
  have hload : v = b.toNat % 256 ^ 8 := by
    rw [← loadWritten_eq_loadLE 8 m (8 * i) v hv]
    exact loadLE_of_bytes 8 _ _ _ fun x h1 h2 => by rw [h x h1 h2, Option.getD_some]
  rw [entryPattern, hv, Option.getD_some, hload, Nat.mod_eq_of_lt (show b.toNat < 256 ^ 8 from b.isLt),
    BitVec.ofNat_toNat, BitVec.setWidth_eq]

@[simp] theorem setMemory_rst (s : State) (sp : Space) (m : Memory) : (setMemory s sp m).rst = s.rst := by
  cases sp <;> rfl

@[simp] theorem setMemory_busy (s : State) (sp : Space) (m : Memory) : (setMemory s sp m).busy = s.busy := by
  cases sp <;> rfl

theorem memory_setMemory_same (s : State) (sp : Space) (m : Memory) : memory (setMemory s sp m) sp = m := by
  rw [memory_setMemory, if_pos rfl]

/-- Two weight writes one after the other store both words. -/
theorem memory_busWrite_weights {s : State} {off off' : BitVec 22} {sp : Space} {a a' : Nat} (hr : s.rst = false)
    (hb : s.busy = false) (ht : target .b4 off = .reg (.weight sp a)) (ht' : target .b4 off' = .reg (.weight sp a'))
    (v v' : Word) : memory (busWrite (busWrite s .b4 off v) .b4 off' v') sp
      = storeLE (storeLE (memory s sp) a 4 v.toNat) a' 4 v'.toNat := by
  rw [busWrite_weight hr hb ht, busWrite_weight (by simp [hr]) (by simp [hb]) ht', memory_setMemory_same,
    memory_setMemory_same]

/-- A weight memory of `entries` entries stands where the map has it. -/
theorem weightsAt {s : State} {base entries : Nat} {sp : Space} (hr : s.rst = false)
    (hsize : base + 8 * entries ≤ 0x100000) (hbase : base % 4 = 0)
    (hloc : ∀ off, base ≤ off → off < base + 8 * entries → regLoc off = .weight sp (off - base)) :
    WeightsAt s base entries (fun u => memory u sp) (setMemory s sp) := by
  have target_of {off : BitVec 22} {a : Nat} (ha : off.toNat = base + a) (h1 : a < 8 * entries) (h4 : a % 4 = 0) :
      target .b4 off = .reg (.weight sp a) := by
    rw [target_b4_reg (by omega) (by omega), ha, hloc _ (by omega) (by omega), Nat.add_sub_cancel_left]
  refine ⟨fun off h1 h2 h4 => ?_, fun i lo hi hi' hb => ?_⟩
  · have ht : target .b4 off = .reg (.weight sp (off.toNat - base)) := target_of (by omega) (by omega) (by omega)
    exact ⟨fun k b hk hread => busRead_weight_byte hr ht hk hread,
      fun v hb => ⟨_, busWrite_weight hr hb ht v, read_storeLE_word _ _ 4 v⟩⟩
  · have hlo : target .b4 (BitVec.ofNat 22 (base + 8 * i)) = .reg (.weight sp (8 * i)) :=
      target_of (by rw [BitVec.toNat_ofNat]; omega) (by omega) (by omega)
    have hhi : target .b4 (BitVec.ofNat 22 (base + 8 * i + 4)) = .reg (.weight sp (8 * i + 4)) :=
      target_of (by rw [BitVec.toNat_ofNat]; omega) (by omega) (by omega)
    dsimp only
    rw [memory_busWrite_weights hr hb hlo hhi]
    exact entry_of_bytes fun x h1 h2 => read_store_halves _ _ lo hi h1 h2

/-! ### A write and the other registers -/

theorem readReg_setWord_other (s : State) (v : Word) {r : WordReg} {loc : RegLoc} (h : loc ≠ .word r) :
    readReg (setWord s r v) loc = readReg s loc := by
  cases loc with
  | word r' =>
    have hne : r' ≠ r := fun e => h (congrArg RegLoc.word e)
    rw [readReg, getWord_setWord, if_neg hne, readReg]
  | half r' hi => cases r <;> cases r' <;> rfl
  | weight sp a => cases r <;> cases sp <;> rfl
  | _ => cases r <;> rfl

/-- Writing one half of a 64-bit register leaves its other half and every other register. -/
theorem readReg_setHalf_other (s : State) (v : Word) {r : F64Reg} {hi : Bool} {loc : RegLoc} (h : loc ≠ .half r hi) :
    readReg (setF64 s r (setHalf hi (getF64 s r) v)) loc = readReg s loc := by
  cases loc with
  | half r' hi' =>
    rw [readReg, readReg, getF64_setF64]
    by_cases hr : r' = r
    · subst hr
      obtain rfl : hi' = !hi := Bool.eq_not.2 fun e => h (congrArg (RegLoc.half r') e)
      rw [if_pos rfl, getHalf_setHalf_other]
    · rw [if_neg hr]
  | word r' => cases r <;> cases r' <;> rfl
  | weight sp a => cases r <;> cases sp <;> rfl
  | _ => cases r <;> rfl

/-- A host read of a stored byte, and of any other byte of any memory. -/
theorem hostByte_store (s : State) (sp sp' : Space) (a x : Nat) (v : Word) :
    hostByte (setMemory s sp (storeLE (memory s sp) a 4 v.toNat)) sp' x =
      if sp' = sp ∧ a ≤ x ∧ x < a + 4 then BitVec.ofNat 8 (v.toNat / 256 ^ (x - a)) else hostByte s sp' x := by
  rw [hostByte, memory_setMemory, setMemory_era, hostByte]
  by_cases hsp : sp' = sp
  · subst hsp
    rw [if_pos rfl, read_storeLE]
    by_cases hx : a ≤ x ∧ x < a + 4
    · rw [if_pos hx, if_pos ⟨rfl, hx⟩, Option.getD_some]
    · rw [if_neg hx, if_neg fun h => hx h.2]
  · rw [if_neg hsp, if_neg fun h => hsp h.1]

theorem readReg_store_same (s : State) (sp : Space) (a : Nat) (v : Word) :
    readReg (setMemory s sp (storeLE (memory s sp) a 4 v.toNat)) (.weight sp a) = v := by
  rw [readReg, loadLE_of_bytes 4 _ a v.toNat fun x h1 h2 => by rw [hostByte_store, if_pos ⟨rfl, h1, h2⟩],
    Nat.mod_eq_of_lt (show v.toNat < 256 ^ 4 from v.isLt), BitVec.ofNat_toNat, BitVec.setWidth_eq]

/-- Storing a word in a memory leaves every register but the words it overlaps. -/
theorem readReg_store_other (s : State) (v : Word) {sp : Space} {a : Nat} {loc : RegLoc}
    (h : ∀ a', loc = .weight sp a' → a + 4 ≤ a' ∨ a' + 4 ≤ a) :
    readReg (setMemory s sp (storeLE (memory s sp) a 4 v.toNat)) loc = readReg s loc := by
  cases loc with
  | weight sp' a' =>
    rw [readReg, readReg]
    refine congrArg _ (loadLE_congr 4 _ _ a' fun x h1 h2 => ?_)
    rw [hostByte_store, if_neg]
    rintro ⟨rfl, hx⟩
    have := h a' rfl
    omega
  | word r => cases sp <;> cases r <;> rfl
  | half r hi => cases sp <;> cases r <;> rfl
  | _ => cases sp <;> rfl

/-- The register a write names reads back what was written. -/
theorem readReg_writeReg_same {s : State} {loc : RegLoc} (hb : s.busy = false) (hd : loc.isData = true) (v : Word) :
    readReg (writeReg s loc v) loc = v := by
  cases loc with
  | word r => rw [writeReg, whenIdle_idle hb, readReg, getWord_setWord, if_pos rfl]
  | half r hi => rw [writeReg, whenIdle_idle hb, readReg, getF64_setF64, if_pos rfl, getHalf_setHalf]
  | weight sp a => rw [writeReg, whenIdle_idle hb, readReg_store_same]
  | _ => cases hd

/-- Every register at another offset reads as before. -/
theorem readReg_writeReg_other {s : State} {off off' : Nat} (hb : s.busy = false) (hd : (regLoc off).isData = true)
    (h4 : off % 4 = 0) (h4' : off' % 4 = 0) (hne : off' ≠ off) (v : Word) :
    readReg (writeReg s (regLoc off) v) (regLoc off') = readReg s (regLoc off') := by
  have hloc : regLoc off' ≠ regLoc off := fun h => hne (regLoc_inj h4 h4' hd h)
  cases hl : regLoc off with
  | word r => rw [writeReg, whenIdle_idle hb, readReg_setWord_other s v (hl ▸ hloc)]
  | half r hi => rw [writeReg, whenIdle_idle hb, readReg_setHalf_other s v (hl ▸ hloc)]
  | weight sp a =>
    rw [writeReg, whenIdle_idle hb, readReg_store_other s v fun a' hl' => ?_]
    have hoff := (regLoc_weight hl).2
    have hoff' := (regLoc_weight hl').2
    omega
  | _ => rw [hl] at hd; cases hd

/-- A data write changes geometry, parameters and weight memories only. -/
theorem writeReg_data_frame {s : State} {off : Nat} (hb : s.busy = false) (hd : (regLoc off).isData = true) (v : Word) :
    ∃ width height dataLen params kw gt, writeReg s (regLoc off) v =
      { s with width := width, height := height, dataLen := dataLen, params := params, kw := kw, gt := gt } := by
  cases hl : regLoc off with
  | word r =>
    rw [writeReg, whenIdle_idle hb]
    cases r <;> exact ⟨_, _, _, _, _, _, rfl⟩
  | half r hi =>
    rw [writeReg, whenIdle_idle hb]
    cases r <;> exact ⟨_, _, _, _, _, _, rfl⟩
  | weight sp a =>
    rw [writeReg, whenIdle_idle hb]
    obtain ⟨rfl | rfl, -⟩ := regLoc_weight hl <;> exact ⟨_, _, _, _, _, _, rfl⟩
  | _ => rw [hl] at hd; cases hd

/-- A 4-byte read below the pixel windows does not see what its register does not show. -/
theorem busRead_b4_congr {s t : State} {off : BitVec 22} (hrs : s.rst = false) (hrt : t.rst = false)
    (hlt : off.toNat < 0x100000) (h : off.toNat % 4 = 0 → readReg t (regLoc off.toNat) = readReg s (regLoc off.toNat)) :
    (busRead t .b4 off).rdata = (busRead s .b4 off).rdata := by
  by_cases h4 : off.toNat % 4 = 0
  · have ht := target_b4_reg h4 hlt
    rw [busRead_reg_rdata hrt ht, busRead_reg_rdata hrs ht, h h4]
  · have ht : target .b4 off = .unsupported := target_unsupported (supported_eq_false (.inl h4))
    rw [busRead_unsupported hrt ht, busRead_unsupported hrs ht]

/-- Settles O46, from the map and the writes: each offset names its register, and what a write there changes. -/
theorem dataRegistersReadBack : Obligations.DataRegistersReadBack := by
  unfold Obligations.DataRegistersReadBack
  refine ⟨fun s hr => ?map, fun s off v hr hb hd => ?write⟩
  case map =>
    have hkw := weightsAt (s := s) (entries := 81) hr (by decide) (by decide) fun _ => regLoc_kw
    have hgt := weightsAt (s := s) (entries := 255) hr (by decide) (by decide) fun _ => regLoc_gt
    exact ⟨registerAt_word hr target_width, registerAt_word hr target_height, registerAt_word hr target_dataLen,
      registerAt_word hr target_ksize, registerAt_word hr target_glen, registerAt_word hr target_posterLevels,
      registerAt_word hr target_mosaicSize, registerAt_word hr target_tintHex0, registerAt_word hr target_tintHex1,
      map_amountReg s.params, fun i => halvesAt_f64 hr (.amount i), fun i => halvesAt_f64 hr (.lumCoef i),
      fun i => halvesAt_f64 hr (.sepCoef i), hkw, hgt⟩
  case write =>
    obtain ⟨h4, hrange⟩ := (dataRegister_iff _).1 hd
    have hdata := (regLoc_class h4).1 hd
    have hlt : off.toNat < 0x100000 := by omega
    have ht := target_b4_reg h4 hlt
    rw [busWrite_reg hr ht]
    obtain ⟨width, height, dataLen, params, kw, gt, hframe⟩ := writeReg_data_frame hb hdata v
    have hrst : (writeReg s (regLoc off.toNat) v).rst = false := by rw [hframe]; exact hr
    refine ⟨?_, fun off' hne hlt' => busRead_b4_congr hr hrst hlt' fun h4' => ?_, ?_⟩
    · rw [busRead_reg_rdata hrst ht, readReg_writeReg_same hb hdata]
    · exact readReg_writeReg_other hb hdata h4 h4' (fun h => hne (BitVec.eq_of_toNat_eq h)) v
    · rw [hframe]

end Sys2Proof.Machine

/-! PROOF. The exact value of a binary64 pattern (40_blender.md R110). -/

namespace Sys2Proof.Machine

/-- `scaled` as a product with a power of 2. -/
theorem scaled_eq_zpow (m k : Nat) : scaled m k = (m : Rat) * (2 : Rat) ^ ((k : Int) - 1075) := by
  have h2 : (2 : Rat) ≠ 0 := two_ne_zero
  rw [scaled, Rat.mkRat_eq_div, zpow_sub₀ h2, zpow_natCast, mul_div_assoc', Int.cast_natCast, Nat.cast_mul,
    Nat.cast_pow, Nat.cast_pow, Nat.cast_ofNat]
  rfl

/-- The sign of a pattern (40_blender.md R110). -/
def f64Sign (b : F64) : Rat := if b.getLsbD 63 then -1 else 1

theorem f64val_of_exponent_zero {b : F64} (h : f64Exponent b = 0) :
    f64val b = f64Sign b * (f64Fraction b : Rat) * (2 : Rat) ^ (-1074 : Int) := by
  have hpow : ((1 : Nat) : Int) - 1075 = -1074 := by norm_num
  simp only [f64val, f64Sign, if_pos h, scaled_eq_zpow, hpow]
  split_ifs <;> ring

theorem f64val_of_exponent_ne_zero {b : F64} (h : f64Exponent b ≠ 0) :
    f64val b = f64Sign b * ((2 : Rat) ^ 52 + (f64Fraction b : Rat)) * (2 : Rat) ^ ((f64Exponent b : Int) - 1075) := by
  have hcast : ((2 ^ 52 + f64Fraction b : Nat) : Rat) = (2 : Rat) ^ 52 + (f64Fraction b : Rat) := by push_cast; rfl
  simp only [f64val, f64Sign, if_neg h, scaled_eq_zpow, hcast]
  split_ifs <;> ring

theorem f64Finite_iff (b : F64) : f64Finite b = true ↔ f64Exponent b ≠ 0x7FF := bne_iff_ne

/-- Settles O9, by the exponent field. -/
theorem binarySixtyFourValues : Obligations.BinarySixtyFourValues := by
  unfold Obligations.BinarySixtyFourValues
  exact fun b => ⟨f64Finite_iff b, f64val_of_exponent_zero, f64val_of_exponent_ne_zero⟩

theorem f64val_zero : f64val 0 = 0 := by
  rw [f64val_of_exponent_zero (by decide), show f64Fraction 0 = 0 by decide, Nat.cast_zero, mul_zero, zero_mul]

end Sys2Proof.Machine

/-! PROOF. Tint strings that mean the same colour (41_perpixel.md R138, R139). -/

namespace Sys2Proof.Machine

open Sys2Proof.Safety

/-- The four bytes of a tint word, peeled off the append from its low end. -/
theorem extractLsb'_tintWord (b0 b1 b2 b3 : Byte) :
    (tintWord b0 b1 b2 b3).extractLsb' 0 8 = b0 ∧ (tintWord b0 b1 b2 b3).extractLsb' 8 8 = b1 ∧
      (tintWord b0 b1 b2 b3).extractLsb' 16 8 = b2 ∧ (tintWord b0 b1 b2 b3).extractLsb' 24 8 = b3 := by
  have low {n : Nat} (x : BitVec n) (b : Byte) : (x ++ b).extractLsb' 0 8 = b := BitVec.extractLsb'_append_eq_right
  have above {n : Nat} (x : BitVec n) (b : Byte) (k : Nat) : (x ++ b).extractLsb' (8 + k) 8 = x.extractLsb' k 8 := by
    rw [BitVec.extractLsb'_append_eq_of_le (Nat.le_add_right 8 k), Nat.add_sub_cancel_left]
  refine ⟨low _ b0, (above _ b0 0).trans (low _ b1), (above _ b0 8).trans ((above _ b1 0).trans (low _ b2)), ?_⟩
  exact (above _ b0 16).trans ((above _ b1 8).trans ((above b3 b2 0).trans BitVec.extractLsb'_eq_self))

/-- The bytes of two tint words, in string order. -/
theorem tintBytes_tintWord (b0 b1 b2 b3 b4 b5 b6 b7 : Byte) :
    tintBytes (tintWord b0 b1 b2 b3) (tintWord b4 b5 b6 b7) = [b0, b1, b2, b3, b4, b5, b6, b7] := by
  obtain ⟨e0, e1, e2, e3⟩ := extractLsb'_tintWord b0 b1 b2 b3
  obtain ⟨e4, e5, e6, e7⟩ := extractLsb'_tintWord b4 b5 b6 b7
  rw [tintBytes, e0, e1, e2, e3, e4, e5, e6, e7]

theorem untilNul_cons {b : Byte} (h : b ≠ 0x00) (bs : List Byte) : untilNul (b :: bs) = b :: untilNul bs := if_neg h

theorem untilNul_nul (bs : List Byte) : untilNul (0x00 :: bs) = [] := if_pos rfl

theorem dropHash_hash (bs : List Byte) : dropHash (0x23 :: bs) = bs := by
  rw [dropHash, if_pos rfl]

theorem dropHash_of_ne {b : Byte} (h : b ≠ 0x23) (bs : List Byte) : dropHash (b :: bs) = b :: bs := if_neg h

/-- Three digits name the colour of the same digits doubled. -/
theorem colour_of_doubled (a b c : Byte) :
    (hexDigits [a, b, c]).bind colourOfDigits = (hexDigits [a, a, b, b, c, c]).bind colourOfDigits := by
  simp only [hexDigits]
  cases hexVal a <;> cases hexVal b <;> cases hexVal c <;> rfl

/-- Settles O36: with the NUL cut off and the '#' dropped, the strings are `abc` or `aabbcc`. -/
theorem shortTintStringDoublesItsDigits : Obligations.ShortTintStringDoublesItsDigits := by
  unfold Obligations.ShortTintStringDoublesItsDigits
  intro a b c z0 z1 z2 z3 y ha hhash hb hc
  have hnul : (0x23 : Byte) ≠ 0x00 := by decide
  simp only [parseTint_eq_bind, tintBytes_tintWord, untilNul_cons ha, untilNul_cons hb, untilNul_cons hc,
    untilNul_cons hnul, untilNul_nul, dropHash_hash, dropHash_of_ne hhash, colour_of_doubled a b c, and_self]

end Sys2Proof.Machine

/-! PROOF. Clamped coordinates and normalized weights (42_convolution.md R173, R174). -/

namespace Sys2Proof.Machine

theorem clampCoord_lt {n : Nat} (hn : 1 ≤ n) (i : Int) : clampCoord n i < n := by
  unfold clampCoord
  omega

/-- A coordinate inside the range is its own clamp. -/
theorem clampCoord_inside {n : Nat} {i : Int} (h0 : 0 ≤ i) (hlt : i < n) : ((clampCoord n i : Nat) : Int) = i := by
  unfold clampCoord
  omega

/-- Settles O39: the clamp as an integer, and its value in and on both sides of the range. -/
theorem clampedCoordinateIsTheNearest : Obligations.ClampedCoordinateIsTheNearest := by
  unfold Obligations.ClampedCoordinateIsTheNearest
  refine fun n i hn => ⟨clampCoord_lt hn i, ?_, clampCoord_inside, fun h => ?_, fun h => ?_⟩
  · rw [clampCoord_eq_toNat_max_min hn, Int.toNat_of_nonneg (le_max_left _ _)]
  · unfold clampCoord
    omega
  · unfold clampCoord
    omega

theorem effectiveWeights_false (ws : List Rat) : effectiveWeights false ws = ws := if_neg (by simp)

theorem sum_effectiveWeights_true {ws : List Rat} (h : ws.sum ≠ 0) : (effectiveWeights true ws).sum = 1 := by
  have hsum : (ws.map fun w => w / ws.sum).sum = ws.sum / ws.sum := by
    simp only [div_eq_mul_inv, List.sum_map_mul_right, List.map_id']
  rw [effectiveWeights_true, hsum, div_self h]

/-- Settles O37. -/
theorem effectiveWeightsAreNormalized : Obligations.EffectiveWeightsAreNormalized := by
  unfold Obligations.EffectiveWeightsAreNormalized
  exact fun ws => ⟨fun h => ⟨sum_effectiveWeights_true h, effectiveWeights_true ws⟩, effectiveWeights_false ws⟩

end Sys2Proof.Machine

/-! PROOF. Ready commands (44_dispatch.md section 3): each command whose boot contract is met completes, and what its
output shows. -/

namespace Sys2Proof.Machine

open Sys2Proof.Safety

/-! ### Completion and output -/

/-- What the statements ask of a command that completes with its whole output. -/
theorem completes_and_shows {i : Instr} {s : State} {lane f : Nat → Nat → Nat → Nat}
    (h : exec i s = .next (completeCommand (writeOutput s lane))) (hi : InputWritten s)
    (hl : ∀ x y c, lane x y c ≤ 255) (hf : ∀ x y c, x < bufW s → y < bufH s → c < 3 → lane x y c = f x y c) :
    ∃ t, exec i s = .next t ∧ Completed s t ∧ Shows s t f :=
  ⟨_, h, completed_writeOutput s lane, shows_congr (shows_writeOutput hi hl) hf⟩

/-- With every check of the table passed, only the buffer and the source bytes are left to check. -/
theorem exec_of_table {α : Type} {i : Instr} {s : State} {ops : Except Stop α} {v : α}
    {lane : α → Nat → Nat → Nat → Nat} (hf : firstFailing (operandChecks s i) = none)
    (hexec : exec i s = pixelCommand s ops lane) (ho : ops = answersTable (operandChecks s i) v) :
    exec i s = pixelCommand s (.ok v) lane := by
  rw [hexec, ho, answersTable_ok v hf]

/-- A ready command whose operands answer the table completes with its lanes. -/
theorem exec_of_table_of_ready {α : Type} {i : Instr} {s : State} {ops : Except Stop α} {v : α}
    {lane : α → Nat → Nat → Nat → Nat} (h : Ready i s) (hexec : exec i s = pixelCommand s ops lane)
    (ho : ops = answersTable (operandChecks s i) v) :
    exec i s = .next (completeCommand (writeOutput s (lane v))) :=
  (exec_of_table h.operands hexec ho).trans (pixelCommand_completes lane h.buffer rfl h.input)

theorem exec_grey_of_ready {s : State} (h : Ready .grey s) :
    exec .grey s = .next (completeCommand (writeOutput s (greyLane s (amountOf s .grey,
      [f64val s.params.lumCoef[0], f64val s.params.lumCoef[1], f64val s.params.lumCoef[2]])))) :=
  exec_of_table_of_ready h rfl (greyOperands_eq s)

theorem exec_sepia_of_ready {s : State} (h : Ready .sepia s) :
    exec .sepia s = .next (completeCommand (writeOutput s (sepiaLane s (amountOf s .sepia,
      s.params.sepCoef.toList.map f64val)))) :=
  exec_of_table_of_ready h rfl (sepiaOperands_eq s)

theorem exec_tint_of_ready {s : State} (h : Ready .tint s) :
    exec .tint s = .next (completeCommand (writeOutput s (tintLane s (amountOf s .tint,
      (parseTint s.params.tintHex0 s.params.tintHex1).getD [])))) :=
  exec_of_table_of_ready h rfl (tintOperands_eq s)

theorem exec_poster_of_ready {s : State} (h : Ready .poster s) :
    exec .poster s = .next (completeCommand (writeOutput s (posterLane s (amountOf s .poster,
      s.params.posterLevels.toNat)))) :=
  exec_of_table_of_ready h rfl (posterOperands_eq s)

theorem exec_mosaic_of_ready {s : State} (h : Ready .mosaic s) :
    exec .mosaic s = .next (completeCommand (writeOutput s (mosaicLane s (amountOf s .mosaic,
      s.params.mosaicSize.toNat)))) :=
  exec_of_table_of_ready h rfl (mosaicOperands_eq s)

theorem exec_convBox_of_ready {s : State} (h : Ready .convBox s) :
    exec .convBox s = .next (completeCommand (writeOutput s (convLane s (amountOf s .box, 3,
      effectiveWeights true boxKernel)))) :=
  exec_of_table_of_ready h rfl (presetOperands_eq s .box boxKernel true)

theorem exec_convEdges_of_ready {s : State} (h : Ready .convEdges s) :
    exec .convEdges s = .next (completeCommand (writeOutput s (convLane s (amountOf s .edges, 3,
      effectiveWeights false edgesKernel)))) :=
  exec_of_table_of_ready h rfl (presetOperands_eq s .edges edgesKernel false)

theorem exec_convEmboss_of_ready {s : State} (h : Ready .convEmboss s) :
    exec .convEmboss s = .next (completeCommand (writeOutput s (convLane s (amountOf s .emboss, 3,
      effectiveWeights true embossKernel)))) :=
  exec_of_table_of_ready h rfl (presetOperands_eq s .emboss embossKernel true)

theorem exec_convSharpen_of_ready {s : State} (h : Ready .convSharpen s) :
    exec .convSharpen s = .next (completeCommand (writeOutput s (convLane s (amountOf s .sharpen, 3,
      effectiveWeights true sharpenKernel)))) :=
  exec_of_table_of_ready h rfl (presetOperands_eq s .sharpen sharpenKernel true)

theorem exec_convMatrix_of_ready {s : State} (h : Ready .convMatrix s) :
    exec .convMatrix s = .next (completeCommand (writeOutput s (convLane s (amountOf s .matrix, ksizeOf s,
      effectiveWeights false (entryValues s.kw (ksizeOf s * ksizeOf s)))))) :=
  pixelCommand_completes (convLane s) h.buffer (matrixOperands_ok h.operands nofun) h.input

theorem exec_gblur_of_ready {s : State} (h : Ready .gblur s) :
    exec .gblur s = .next (completeCommand (writeOutput s (gblurLane s (glenOf s,
      effectiveWeights true (entryValues s.gt (glenOf s)))))) :=
  pixelCommand_completes (gblurLane s) h.buffer (gblurOperands_ok h.operands h.sum) h.input

/-! ### The per-pixel filters -/

/-- Settles O13: the model's luminance is the statement's, with the three coefficients read off the register vector. -/
theorem greyBlendsTowardLuminance : Obligations.GreyBlendsTowardLuminance := by
  unfold Obligations.GreyBlendsTowardLuminance
  exact fun s h => completes_and_shows (exec_grey_of_ready h) h.input (fun _ _ _ => blend_le _ _ _)
    fun _ _ _ _ _ _ => rfl

/-- A lookup in the mapped coefficients is the value of the coefficient; outside the list both are 0. -/
theorem getD_map_f64val (bs : List F64) (j : Nat) : (bs.map f64val).getD j 0 = f64val (bs.getD j 0) := by
  rw [← f64val_zero, List.getD_map]

theorem sepiaValue_eq_sum (s : State) (x y i : Nat) :
    sepiaValue (s.params.sepCoef.toList.map f64val) s x y i =
      ∑ j ∈ Finset.range 3, sepiaWeight s i j * (inCh s x y j : Rat) := by
  simp only [sepiaValue, getD_map_f64val, sepiaWeight, Finset.sum_range_succ, Finset.sum_range_zero, zero_add, add_zero]

/-- Settles O14: the row of the matrix as a sum over the source channels. -/
theorem sepiaBlendsTowardTheMatrixRow : Obligations.SepiaBlendsTowardTheMatrixRow := by
  unfold Obligations.SepiaBlendsTowardTheMatrixRow
  refine fun s h => completes_and_shows (exec_sepia_of_ready h) h.input (fun _ _ _ => blend_le _ _ _)
    fun x y i _ _ _ => ?_
  rw [sepiaLane, sepiaValue_eq_sum]

/-- A ready TINT has a legal string, of three channel values. -/
theorem parseTint_of_ready {s : State} (h : Ready .tint s) :
    ∃ tR tG tB, parseTint s.params.tintHex0 s.params.tintHex1 = some [tR, tG, tB] ∧ tR ≤ 255 ∧ tG ≤ 255 ∧ tB ≤ 255 := by
  have hlegal : (parseTint s.params.tintHex0 s.params.tintHex1).isSome = true :=
    (firstFailing_eq_none _).1 h.operands _ (List.mem_cons_self ..)
  obtain ⟨colour, hcolour⟩ := Option.isSome_iff_exists.1 hlegal
  obtain ⟨hlen, hle⟩ := parseTint_channels hcolour
  obtain ⟨tR, tG, tB, rfl⟩ := List.length_eq_three.1 hlen
  exact ⟨tR, tG, tB, hcolour, hle tR (by simp), hle tG (by simp), hle tB (by simp)⟩

/-- Settles O15: each lane looks its own value up in the parsed colour. -/
theorem tintBlendsTowardTheParsedColour : Obligations.TintBlendsTowardTheParsedColour := by
  unfold Obligations.TintBlendsTowardTheParsedColour
  intro s h
  obtain ⟨tR, tG, tB, hparse, hR, hG, hB⟩ := parseTint_of_ready h
  have hexec := exec_tint_of_ready h
  rw [hparse, Option.getD_some] at hexec
  obtain ⟨t, ht, hc, hs⟩ := completes_and_shows hexec h.input (fun _ _ _ => blend_le _ _ _) (fun _ _ _ _ _ _ => rfl)
  refine ⟨tR, tG, tB, t, hparse, hR, hG, hB, ht, hc, shows_congr hs fun x y c _ _ hc => ?_⟩
  interval_cases c <;> rfl

/-- Settles O16: the level is `posterValue`, spelled out. -/
theorem posterBlendsTowardTheLevel : Obligations.PosterBlendsTowardTheLevel := by
  unfold Obligations.PosterBlendsTowardTheLevel
  exact fun s h => completes_and_shows (exec_poster_of_ready h) h.input (fun _ _ _ => blend_le _ _ _)
    fun _ _ _ _ _ _ => rfl

/-- Settles O17: the anchor coordinate spelled out. -/
theorem mosaicBlendsTowardTheAnchor : Obligations.MosaicBlendsTowardTheAnchor := by
  unfold Obligations.MosaicBlendsTowardTheAnchor
  exact fun s h => completes_and_shows (exec_mosaic_of_ready h) h.input (fun _ _ _ => blend_le _ _ _)
    fun _ _ _ _ _ _ => rfl

/-! ### The convolutions -/

theorem effectiveWeights_box :
    effectiveWeights true boxKernel = [1/9, 1/9, 1/9, 1/9, 1/9, 1/9, 1/9, 1/9, 1/9] := by
  have hsum : boxKernel.sum = 9 := by norm_num [boxKernel]
  rw [effectiveWeights_true, hsum]
  rfl

/-- A kernel of sum 1 is its own normalization. -/
theorem effectiveWeights_of_sum_one {ws : List Rat} (h : ws.sum = 1) : effectiveWeights true ws = ws := by
  simp [effectiveWeights_true, h]

/-- A convolution command that completed with given weights shows their convolution sum. -/
theorem completes_and_shows_convLane {i : Instr} {s : State} {a : Rat} {k : Nat} {ws : List Rat} (hi : InputWritten s)
    (h : exec i s = .next (completeCommand (writeOutput s (convLane s (a, k, ws))))) :
    ∃ t, exec i s = .next t ∧ Completed s t ∧
      Shows s t fun x y c => blend a (convSum s k ws x y c) (inCh s x y c) :=
  completes_and_shows h hi (fun _ _ _ => blend_le _ _ _) fun _ _ _ _ _ _ => rfl

/-- Settles O18: box divides by its sum 9, edges is not normalized, emboss and sharpen have sum 1. -/
theorem presetsConvolveTheirKernels : Obligations.PresetsConvolveTheirKernels := by
  unfold Obligations.PresetsConvolveTheirKernels
  refine fun s => ⟨fun h => ?box, fun h => ?edges, fun h => ?emboss, fun h => ?sharpen⟩
  case box =>
    have hexec := exec_convBox_of_ready h
    rw [effectiveWeights_box] at hexec
    exact completes_and_shows_convLane h.input hexec
  case edges =>
    have hexec := exec_convEdges_of_ready h
    rw [effectiveWeights_false] at hexec
    exact completes_and_shows_convLane h.input hexec
  case emboss =>
    have hexec := exec_convEmboss_of_ready h
    rw [effectiveWeights_of_sum_one (by norm_num [embossKernel])] at hexec
    exact completes_and_shows_convLane h.input hexec
  case sharpen =>
    have hexec := exec_convSharpen_of_ready h
    rw [effectiveWeights_of_sum_one (by norm_num [sharpenKernel])] at hexec
    exact completes_and_shows_convLane h.input hexec

/-- Settles O19: the KW weights as written, and divided by their sum. -/
theorem matrixConvolvesTheKernelMemory : Obligations.MatrixConvolvesTheKernelMemory := by
  unfold Obligations.MatrixConvolvesTheKernelMemory
  refine fun s => ⟨fun h => ?plain, fun h => ?normalized⟩
  case plain =>
    have hexec := exec_convMatrix_of_ready h
    rw [effectiveWeights_false] at hexec
    exact completes_and_shows_convLane h.input hexec
  case normalized =>
    have hexec := exec_convMatrixN_of_ready h
    rw [effectiveWeights_true] at hexec
    exact completes_and_shows_convLane h.input hexec

end Sys2Proof.Machine

/-! PROOF. All the pixel commands together (44_dispatch.md R226 to R231, 40_blender.md R111, R119): completion, the stop
at unwritten storage, a failure repeated, alpha, and amount 0. -/

namespace Sys2Proof.Machine

open Sys2Proof.Safety

/-! ### Checks 3 and 4 passed -/

/-- With checks 3 and 4 passed, only the buffer and the source bytes are left to check. -/
theorem exists_exec_eq_pixelCommand_ok {i : Instr} {s : State} (hi : i ≠ .defaults)
    (hf : firstFailing (operandChecks s i) = none) (hsum : SumNonzero s i) :
    ∃ (α : Type) (v : α) (lane : α → Nat → Nat → Nat → Nat), exec i s = pixelCommand s (.ok v) lane := by
  cases i with
  | grey => exact ⟨_, _, greyLane s, exec_of_table hf rfl (greyOperands_eq s)⟩
  | sepia => exact ⟨_, _, sepiaLane s, exec_of_table hf rfl (sepiaOperands_eq s)⟩
  | tint => exact ⟨_, _, tintLane s, exec_of_table hf rfl (tintOperands_eq s)⟩
  | poster => exact ⟨_, _, posterLane s, exec_of_table hf rfl (posterOperands_eq s)⟩
  | mosaic => exact ⟨_, _, mosaicLane s, exec_of_table hf rfl (mosaicOperands_eq s)⟩
  | convBox => exact ⟨_, _, convLane s, exec_of_table hf rfl (presetOperands_eq s .box boxKernel true)⟩
  | convEdges => exact ⟨_, _, convLane s, exec_of_table hf rfl (presetOperands_eq s .edges edgesKernel false)⟩
  | convEmboss => exact ⟨_, _, convLane s, exec_of_table hf rfl (presetOperands_eq s .emboss embossKernel true)⟩
  | convSharpen => exact ⟨_, _, convLane s, exec_of_table hf rfl (presetOperands_eq s .sharpen sharpenKernel true)⟩
  | convMatrix => exact ⟨_, _, convLane s, congrArg (pixelCommand s · (convLane s)) (matrixOperands_ok hf nofun)⟩
  | convMatrixN =>
    exact ⟨_, _, convLane s, congrArg (pixelCommand s · (convLane s)) (matrixOperands_ok hf fun _ => hsum)⟩
  | gblur => exact ⟨_, _, gblurLane s, congrArg (pixelCommand s · (gblurLane s)) (gblurOperands_ok hf hsum)⟩
  | defaults => exact absurd rfl hi

/-! ### Completion -/

theorem overwrite_zero (m : Memory) (f : Nat → Byte) : Memory.overwrite m 0 f = m := by
  simp [Memory.overwrite]

/-- An empty buffer leaves OUT_MEM as it is. -/
theorem writeOutput_empty {s : State} (h : bufW s * bufH s = 0) (lane : Nat → Nat → Nat → Nat) :
    (writeOutput s lane).outMem = s.outMem := by
  rw [writeOutput_outMem, bufBytes, h, Nat.zero_mul, overwrite_zero]

/-- Settles O12, once for all twelve commands: their checks pass, and the shared frame does the rest. -/
theorem readyPixelCommandCompletes : Obligations.ReadyPixelCommandCompletes := by
  unfold Obligations.ReadyPixelCommandCompletes
  intro i s hi h
  obtain ⟨_, v, lane, hexec⟩ := exists_exec_eq_pixelCommand_ok hi h.operands h.sum
  exact ⟨_, hexec.trans (pixelCommand_completes lane h.buffer rfl h.input), completed_writeOutput s (lane v),
    fun h0 => writeOutput_empty h0 (lane v), fun _ ha => writeOutput_written (lane v) ha⟩

/-! ### Unwritten storage -/

theorem pixelCommand_input_error {α : Type} {s : State} {v : α} {e : Stop} (lane : α → Nat → Nat → Nat → Nat)
    (hb : BufferFits s) (hi : checkInput s = .error e) : pixelCommand s (.ok v) lane = stopCommand e s := by
  unfold pixelCommand
  rw [(checkBuffer_ok s).2 hb, hi]

/-- A failing entry that is unwritten stops the model at its first byte. -/
theorem weightValues_of_firstFailing_unwritten {m : Memory} {base n j : Nat} (sp : Space)
    (h : firstFailing ((List.range n).map fun j => (base + 8 * j, entryFinite m j)) = some (base + 8 * j))
    (hw : entryWritten m j = false) : weightValues m sp base 0 n = .error (.unwritten sp (8 * j)) := by
  obtain ⟨k, hk, hoff, hbad, hlow⟩ := firstFailing_entries h
  obtain rfl : j = k := by omega
  rw [weightValues_error sp base n (Nat.zero_le j) (by omega) (fun k _ hk => hlow k hk) hbad, hw]
  rfl

theorem matrixOperands_unwritten {s : State} {norm : Bool} {j : Nat}
    (h : firstFailing (operandChecks s .convMatrix) = some (0x400 + 8 * j)) (hw : entryWritten s.kw j = false) :
    matrixOperands s norm = .error (.unwritten .kw (8 * j)) := by
  rw [operandChecks, firstFailing_cons, firstFailing_cons] at h
  split_ifs at h with hsize hamount
  · have hamount' : f64Finite (amountReg s.params .matrix) = true := hamount
    rw [matrixOperands_eq, if_pos hsize, if_pos hamount', weightValues_of_firstFailing_unwritten .kw h hw]
    rfl
  · have hoff : 0x0C8 = 0x400 + 8 * j := Option.some_inj.1 h
    omega
  · have hoff : 0x02C = 0x400 + 8 * j := Option.some_inj.1 h
    omega

theorem gblurOperands_unwritten {s : State} {j : Nat}
    (h : firstFailing (operandChecks s .gblur) = some (0x800 + 8 * j)) (hw : entryWritten s.gt j = false) :
    gblurOperands s = .error (.unwritten .gt (8 * j)) := by
  rw [operandChecks, firstFailing_cons] at h
  split_ifs at h with hlen
  · rw [gblurOperands_eq, if_pos hlen, weightValues_of_firstFailing_unwritten .gt h hw]
    rfl
  · have hoff : 0x030 = 0x800 + 8 * j := Option.some_inj.1 h
    omega

/-- Settles O27: the source check stops where the others passed, and the entries stop where the table first fails. -/
theorem unwrittenStorageStopsTheModel : Obligations.UnwrittenStorageStopsTheModel := by
  unfold Obligations.UnwrittenStorageStopsTheModel
  refine ⟨fun i s a hi hb hf hsum ha hu hlow => ?source, fun i s j hi hb hf hw => ?kernel, fun s j hb hf hw => ?taps⟩
  case source =>
    obtain ⟨_, v, lane, hexec⟩ := exists_exec_eq_pixelCommand_ok hi hf hsum
    rw [hexec, pixelCommand_input_error lane hb (checkInput_unwritten ha hu hlow), stopCommand]
  case kernel =>
    rcases hi with rfl | rfl
    · exact pixelCommand_operand_error (convLane s) hb (matrixOperands_unwritten hf hw)
    · exact pixelCommand_operand_error (convLane s) hb (matrixOperands_unwritten hf hw)
  case taps => exact pixelCommand_operand_error (gblurLane s) hb (gblurOperands_unwritten hf hw)

/-! ### A failure repeated -/

/-- A command that ends with a new error record was stopped by a check that raised it. -/
theorem exec_of_new_error {i : Instr} {s t : State} (h : exec i s = .next t) (hs : s.err = false) (ht : t.err = true) :
    ∃ k info, t = raiseError k info s := by
  rcases exec_next_cases h with hraise | ⟨-, -, -, lane, rfl⟩ | ⟨-, rfl⟩
  · exact hraise
  · simp [hs] at ht
  · simp [hs] at ht

/-- Settles O28: the error left everything that the command reads, so the same check raises the same error. -/
theorem failedCommandFailsAlikeAgain : Obligations.FailedCommandFailsAlikeAgain := by
  unfold Obligations.FailedCommandFailsAlikeAgain
  intro i s t w hs h ht
  obtain ⟨k, info, rfl⟩ := exec_of_new_error h hs ht
  have hagree : Agree s (startCommand w (raiseError k info s)) := ⟨rfl, rfl, rfl, rfl, rfl, rfl, rfl⟩
  obtain ⟨u, hu, -, herr, -, hfailed, -⟩ := outcomeDependsOnlyOnOperands i s (startCommand w (raiseError k info s)) _
    hagree.width hagree.height hagree.dataLen hagree.params hagree.kw hagree.gt hagree.inMem hs rfl h
  obtain ⟨hcode, hinfo, hout⟩ := hfailed rfl
  exact ⟨u, hu, herr, hcode, hinfo, hout⟩

/-! ### Alpha and the source bytes -/

/-- A written source byte is the channel it stands for. -/
theorem read_inMem {s : State} (hi : InputWritten s) {x y k : Nat} (hx : x < bufW s) (hy : y < bufH s) (hk : k < 4) :
    Memory.read s.inMem (pixelOffset (bufW s) x y k) = some (BitVec.ofNat 8 (inCh s x y k)) := by
  obtain ⟨b, hb⟩ := Option.isSome_iff_exists.1 (hi _ (bufBytes_pos_of_lt hx hy k hk))
  rw [inCh, hb, Option.getD_some, BitVec.ofNat_toNat, BitVec.setWidth_eq]

theorem inCh_le (s : State) (x y k : Nat) : inCh s x y k ≤ 255 := by
  have := ((Memory.read s.inMem (pixelOffset (bufW s) x y k)).getD 0).isLt
  rw [inCh]
  omega

/-- The output byte of channel `k` of a pixel of the buffer. -/
theorem read_writeOutput_pixel {s : State} (lane : Nat → Nat → Nat → Nat) {x y k : Nat} (hx : x < bufW s)
    (hy : y < bufH s) (hk : k < 4) :
    Memory.read (writeOutput s lane).outMem (pixelOffset (bufW s) x y k) =
      some (if k = 3 then BitVec.ofNat 8 (inCh s x y 3) else BitVec.ofNat 8 (lane x y k)) := by
  rw [writeOutput_outMem, read_overwrite, if_pos (bufBytes_pos_of_lt hx hy k hk), outByte_pixel hx lane y k hk]

/-- Settles O31: without an error record the command completed with a whole output, alpha copied. -/
theorem alphaPassesThrough : Obligations.AlphaPassesThrough := by
  unfold Obligations.AlphaPassesThrough
  intro i s t hi _ h ht x y hx hy
  rcases exec_next_cases h with ⟨k, info, rfl⟩ | ⟨-, -, hin, lane, rfl⟩ | ⟨hd, -⟩
  · cases ht
  · exact (read_writeOutput_pixel lane hx hy (by decide)).trans (read_inMem hin hx hy (by decide)).symm
  · exact absurd hd hi

/-! ### Amount 0 -/

/-- Every command with an amount blends its own value with the source channel. -/
theorem exec_blends_of_ready {i : Instr} {s : State} {a : Amount} (ha : amountUsed i = some a) (h : Ready i s) :
    ∃ f : Nat → Nat → Nat → Rat, exec i s = .next (completeCommand (writeOutput s fun x y c =>
      blend (amountOf s a) (f x y c) (inCh s x y c))) := by
  cases i with
  | grey => cases ha; exact ⟨_, exec_grey_of_ready h⟩
  | sepia => cases ha; exact ⟨_, exec_sepia_of_ready h⟩
  | tint => cases ha; exact ⟨_, exec_tint_of_ready h⟩
  | poster => cases ha; exact ⟨_, exec_poster_of_ready h⟩
  | mosaic => cases ha; exact ⟨_, exec_mosaic_of_ready h⟩
  | convBox => cases ha; exact ⟨_, exec_convBox_of_ready h⟩
  | convEdges => cases ha; exact ⟨_, exec_convEdges_of_ready h⟩
  | convEmboss => cases ha; exact ⟨_, exec_convEmboss_of_ready h⟩
  | convSharpen => cases ha; exact ⟨_, exec_convSharpen_of_ready h⟩
  | convMatrix => cases ha; exact ⟨_, exec_convMatrix_of_ready h⟩
  | convMatrixN => cases ha; exact ⟨_, exec_convMatrixN_of_ready h⟩
  | gblur => cases ha
  | defaults => cases ha

/-- Every byte of the buffer is a channel of a pixel of it. -/
theorem exists_pixel_of_lt {s : State} {b : Nat} (hb : b < bufBytes s) :
    ∃ x y k, x < bufW s ∧ y < bufH s ∧ k < 4 ∧ b = pixelOffset (bufW s) x y k := by
  have hpix : b / 4 < bufH s * bufW s := by
    rw [bufBytes, Nat.mul_comm (bufW s)] at hb
    omega
  have hw : 0 < bufW s := Nat.pos_of_ne_zero fun h0 => by simp [h0] at hpix
  refine ⟨b / 4 % bufW s, b / 4 / bufW s, b % 4, Nat.mod_lt _ hw, (Nat.div_lt_iff_lt_mul hw).2 hpix, by omega, ?_⟩
  rw [pixelOffset, Nat.div_add_mod', Nat.div_add_mod]

/-- Settles O30: with amount 0 every lane is the source channel, and alpha is copied anyway. -/
theorem amountZeroCopiesTheSource : Obligations.AmountZeroCopiesTheSource := by
  unfold Obligations.AmountZeroCopiesTheSource
  intro i s a ha h0 h
  obtain ⟨f, hexec⟩ := exec_blends_of_ready ha h
  refine ⟨_, hexec, fun b hb => ?_⟩
  obtain ⟨x, y, k, hx, hy, hk, rfl⟩ := exists_pixel_of_lt hb
  rw [completeCommand_outMem, read_writeOutput_pixel _ hx hy hk, read_inMem h.input hx hy hk, h0,
    blend_zero_amount _ (inCh_le s x y k)]
  split_ifs with h3
  · rw [h3]
  · rfl

/-! ### Mosaic blocks -/

theorem anchor_mul (k b : Nat) : anchor k (b * k) = b * k := by
  rw [anchor, Nat.mul_mod_left, Nat.sub_zero]

/-- Every coordinate inside a block has the block's own anchor. -/
theorem anchor_mul_add {k d : Nat} (b : Nat) (hd : d < k) : anchor k (b * k + d) = b * k := by
  rw [anchor, Nat.mul_add_mod_self_right, Nat.mod_eq_of_lt hd, Nat.add_sub_cancel]

theorem blend_one_of_byte {c : Nat} (hc : c ≤ 255) (o : Nat) : blend 1 (c : Rat) o = c :=
  blend_of_mix_eq_byte hc (by ring)

/-- A lane that equals a source channel shows that channel's byte. -/
theorem read_writeOutput_of_lane_eq {s : State} {lane : Nat → Nat → Nat → Nat} {x y x' y' c : Nat}
    (hi : InputWritten s) (hx : x < bufW s) (hy : y < bufH s) (hx' : x' < bufW s) (hy' : y' < bufH s) (hc : c < 3)
    (h : lane x y c = inCh s x' y' c) :
    Memory.read (writeOutput s lane).outMem (pixelOffset (bufW s) x y c) =
      Memory.read s.inMem (pixelOffset (bufW s) x' y' c) := by
  rw [read_writeOutput_pixel lane hx hy (by omega), if_neg (by omega), h, read_inMem hi hx' hy' (by omega)]

/-- Settles O33: at a block's anchor the blend is of equal values, and with amount 1 it is the anchor's value. -/
theorem mosaicBlocksAreUniform : Obligations.MosaicBlocksAreUniform := by
  unfold Obligations.MosaicBlocksAreUniform
  intro s h
  refine ⟨_, exec_mosaic_of_ready h, ?_⟩
  rintro k bx by' rfl hx hy c hc
  refine ⟨?anchor, fun hone dx dy hdx hdy hx' hy' => ?block⟩
  case anchor =>
    refine read_writeOutput_of_lane_eq h.input hx hy hx hy hc ?_
    rw [mosaicLane, anchor_mul, anchor_mul, blend_self _ (inCh_le ..)]
  case block =>
    refine read_writeOutput_of_lane_eq h.input hx' hy' hx hy hc ?_
    rw [mosaicLane, anchor_mul_add bx hdx, anchor_mul_add by' hdy, hone, blend_one_of_byte (inCh_le ..)]

end Sys2Proof.Machine

/-! PROOF. GBLUR: the two normalized passes, and transposition of a square buffer (43_gaussian.md R202, R203, R205). -/

namespace Sys2Proof.Machine

open Sys2Proof.Safety

/-! ### The two passes -/

theorem getD_effectiveWeights_true (ws : List Rat) (i : Nat) :
    (effectiveWeights true ws).getD i 0 = ws.getD i 0 / ws.sum := by
  rw [effectiveWeights_true, List.getD_eq_getElem?_getD, List.getD_eq_getElem?_getD, List.getElem?_map]
  cases ws[i]? <;> simp

/-- The radius of a non-empty tap list, rounded in either number type. -/
theorem radius_cast {n : Nat} (hn : 1 ≤ n) : (((n - 1) / 2 : Nat) : Int) = ((n : Int) - 1) / 2 := by
  omega

/-- A row read at a row of the buffer clamps the column only. -/
theorem neighbour_row {s : State} {x y : Nat} (hw : 1 ≤ bufW s) (hy : y < bufH s) (dx : Int) (c : Nat) :
    neighbour s x y dx 0 c = inCh s (max 0 (min ((x : Int) + dx) ((bufW s : Int) - 1))).toNat y c := by
  have hrow : clampCoord (bufH s) ((y : Int) + 0) = y := by
    rw [add_zero]
    exact Int.natCast_inj.1 (clampCoord_inside (Int.natCast_nonneg y) (Int.ofNat_lt.2 hy))
  rw [neighbour, hrow, clampCoord_eq_toNat_max_min hw]

/-- The horizontal pass with the taps divided by their sum. -/
theorem blurRow_normalized {s : State} {x y : Nat} (hw : 1 ≤ bufW s) (hy : y < bufH s) (n : Nat) (g : List Rat)
    (c : Nat) :
    blurRow s n (effectiveWeights true g) x y c =
      ∑ i ∈ Finset.range n, g.getD i 0 / g.sum *
        (inCh s (max 0 (min ((x : Int) + i - ((n : Int) - 1) / 2) ((bufW s : Int) - 1))).toNat y c : Rat) := by
  rw [blurRow, sumTo_eq_sum_range]
  refine Finset.sum_congr rfl fun i hi => ?_
  have hn : 1 ≤ n := Nat.one_le_of_lt (Finset.mem_range.1 hi)
  rw [getD_effectiveWeights_true, neighbour_row hw hy, radius_cast hn, add_sub_assoc]

/-- The vertical pass over it. -/
theorem blurSum_normalized {s : State} (hh : 1 ≤ bufH s) (n : Nat) (g : List Rat) (x y c : Nat) :
    blurSum s n (effectiveWeights true g) x y c =
      ∑ j ∈ Finset.range n, g.getD j 0 / g.sum *
        blurRow s n (effectiveWeights true g) x
          (max 0 (min ((y : Int) + j - ((n : Int) - 1) / 2) ((bufH s : Int) - 1))).toNat c := by
  rw [blurSum, sumTo_eq_sum_range]
  refine Finset.sum_congr rfl fun j hj => ?_
  have hn : 1 ≤ n := Nat.one_le_of_lt (Finset.mem_range.1 hj)
  rw [getD_effectiveWeights_true, clampCoord_eq_toNat_max_min hh, radius_cast hn, add_sub_assoc]

/-- Settles O20, pass by pass. -/
theorem blurRunsBothPasses : Obligations.BlurRunsBothPasses := by
  unfold Obligations.BlurRunsBothPasses
  refine fun s h => completes_and_shows (exec_gblur_of_ready h) h.input (fun _ _ _ => blend_le _ _ _)
    fun x y c hx hy _ => ?_
  have hw : 1 ≤ bufW s := Nat.one_le_of_lt hx
  have hh : 1 ≤ bufH s := Nat.one_le_of_lt hy
  dsimp only
  rw [gblurLane, blurSum_normalized hh]
  refine congrArg (blend 1 · _) (Finset.sum_congr rfl fun j _ => ?_)
  rw [blurRow_normalized hw]
  omega

/-! ### Transposition -/

/-- Both passes as one double sum over the clamped neighbours. -/
theorem blurSum_eq_sum_neighbour (s : State) (n : Nat) (g : List Rat) (x y c : Nat) :
    blurSum s n g x y c = ∑ j ∈ Finset.range n, ∑ i ∈ Finset.range n, g.getD j 0 * (g.getD i 0 *
      (neighbour s x y ((i : Int) - ((n - 1) / 2 : Nat)) ((j : Int) - ((n - 1) / 2 : Nat)) c : Rat)) := by
  simp only [blurSum, blurRow, sumTo_eq_sum_range, Finset.mul_sum, neighbour_clampCoord_row]

/-- Two square buffers of one size, one channel of the second transposed from the first. -/
structure Transposed (s s' : State) (c : Nat) : Prop where
  square : bufW s = bufH s
  width : bufW s' = bufW s
  height : bufH s' = bufH s
  channel : ∀ x y, x < bufW s → y < bufW s → inCh s' x y c = inCh s y x c

/-- Clamped neighbours of a non-empty square buffer are transposed with it. -/
theorem neighbour_transposed {s s' : State} {c : Nat} (h : Transposed s s' c) (hw : 1 ≤ bufW s) (x y : Nat)
    (dx dy : Int) : neighbour s' x y dx dy c = neighbour s y x dy dx c := by
  rw [neighbour, neighbour, h.width, h.height, ← h.square]
  exact h.channel _ _ (clampCoord_lt hw _) (clampCoord_lt hw _)

/-- The sum over rows and columns does not depend on the order of the two. -/
theorem blurSum_transposed {s s' : State} {c : Nat} (h : Transposed s s' c) (hw : 1 ≤ bufW s) (n : Nat) (g : List Rat)
    (x y : Nat) : blurSum s' n g x y c = blurSum s n g y x c := by
  rw [blurSum_eq_sum_neighbour, blurSum_eq_sum_neighbour, Finset.sum_comm]
  refine Finset.sum_congr rfl fun i _ => Finset.sum_congr rfl fun j _ => ?_
  rw [neighbour_transposed h hw]
  ring

theorem gblurLane_transposed {s s' : State} {c : Nat} (h : Transposed s s' c) {x y : Nat} (hx : x < bufW s)
    (hy : y < bufW s) (n : Nat) (g : List Rat) : gblurLane s' (n, g) x y c = gblurLane s (n, g) y x c := by
  rw [gblurLane, gblurLane, blurSum_transposed h (Nat.one_le_of_lt hx), h.channel x y hx hy]

/-- Outputs whose lanes are transposed, alpha copied from transposed sources, are transposed byte by byte. -/
theorem read_writeOutput_transposed {s s' : State} {lane lane' : Nat → Nat → Nat → Nat} (halpha : Transposed s s' 3)
    {x y c : Nat} (hx : x < bufW s) (hy : y < bufW s) (hc : c < 4) (hlane : lane' x y c = lane y x c) :
    Memory.read (writeOutput s' lane').outMem (pixelOffset (bufW s) x y c) =
      Memory.read (writeOutput s lane).outMem (pixelOffset (bufW s) y x c) := by
  have hx' : x < bufW s' := halpha.width ▸ hx
  have hy' : y < bufH s' := by rw [halpha.height, ← halpha.square]; exact hy
  have hxH : x < bufH s := halpha.square ▸ hx
  have hout := read_writeOutput_pixel lane' hx' hy' hc
  rw [halpha.width] at hout
  rw [hout, read_writeOutput_pixel lane hy hxH hc, halpha.channel x y hx hy, hlane]

/-- Settles O42: lane by lane, and with alpha copied, byte by byte of the two outputs. -/
theorem blurCommutesWithTransposition : Obligations.BlurCommutesWithTransposition := by
  unfold Obligations.BlurCommutesWithTransposition
  refine ⟨fun s s' n g c hsq hw hh _ hch x y hx hy => gblurLane_transposed ⟨hsq, hw, hh, hch⟩ hx hy n g, ?_⟩
  intro s s' h h' hsq hwidth hheight hglen hgt hin
  have hw : bufW s' = bufW s := congrArg BitVec.toNat hwidth
  have hh : bufH s' = bufH s := congrArg BitVec.toNat hheight
  have hn : glenOf s' = glenOf s := congrArg BitVec.toNat hglen
  have transposed {k : Nat} (hk : k < 4) : Transposed s s' k :=
    ⟨hsq, hw, hh, fun x y hx hy => by rw [inCh, inCh, hw, hin x y k hx hy hk]⟩
  have hexec' := exec_gblur_of_ready h'
  rw [hn, hgt] at hexec'
  exact ⟨_, _, exec_gblur_of_ready h, hexec', fun x y c hx hy hc =>
    read_writeOutput_transposed (transposed (by decide)) hx hy hc (gblurLane_transposed (transposed hc) hx hy _ _)⟩

end Sys2Proof.Machine
